-- ==== Sys2Proof/Word.lean ====
section
/-! DEFINITION. The machine's word: cells, registers and addresses are all unsigned 8-bit values
(spec/00_scope.md R5, R6; spec/10_state.md R22, R26). -/

namespace Sys2Proof

/-- A memory cell, a register value or an address: 8 bits, unsigned (R6). -/
abbrev Byte := BitVec 8

/-- A register index, 0..7 (spec/10_state.md R21). -/
abbrev Reg := Fin 8

end Sys2Proof
end

