-- ==== Sys2Proof/Config.lean ====
section
/-! DEFINITION. The implementation parameters of spec/00_scope.md R5 with the values this hardware
has. The opcode bytes `OPC_*` stand beside the decoder in Decode.lean. -/

namespace Sys2Proof.Config

/-- `MEM_SIZE`: the number of memory cells. -/
def memSize : Nat := 256

/-- `SP_INDEX`: the register that is the stack pointer. -/
def spIndex : Reg := 7

/-- `STACK_TOP`: reset value of SP and the underflow bound (spec/92_eei_decisions.md D21). -/
def stackTop : Byte := 0xF4

/-- `BOTTOM_GUARD`: the SP value at which a push is an overflow. -/
def bottomGuard : Byte := 0

/-- `RESET_PC`: pc after reset, the reset vector. -/
def resetPc : Byte := 0

/-- `RET_POPS`: whether RET increments SP; false on this hardware (spec/92_eei_decisions.md D8,
log entry 9). -/
def retPops : Bool := false

/-- What a cell reads as that is not listed in a `Memory`. DESIGN CHOICE (log entry 1), unsafe for
claims that start at `State.reset`: the spec leaves `MEM_INIT` open (R33, D15). A claim for every
`MEM_INIT` starts at `State.resetWith memInit`. -/
def unwrittenByte : Byte := 0

end Sys2Proof.Config
end

