-- ==== Sys2Proof/Machine/State.lean ====
section
/-! DEFINITION. The complete state of the block (spec/10_state.md R20), the named reasons a step can
stop, and the state after reset (R33). -/

namespace Sys2Proof.Machine

/-- The flat memory as the list of its cells that differ from `Config.unwrittenByte`, addresses
strictly rising (spec/20_memory.md R40; the form is `Memory.wf` in Ops.lean). -/
abbrev Memory := List Host.Cell

/-- The run-state register `RUN` (R30). -/
inductive RunState where
  | running
  | halted
  deriving DecidableEq, Repr

/-- `CAUSE`: why RUN became HALTED; the spec's own bookkeeping (R31, D22). -/
inductive Cause where
  | none
  | haltInstruction
  | stackOverflow
  | unsupportedOperation
  | invalidRegister
  deriving DecidableEq, Repr

/-- An event sent to the diagnostic sink (spec/50_blocks_and_interfaces.md R151). -/
inductive Event where
  /-- PRN executed with this register value. -/
  | print (v : Byte)
  /-- A push found SP = 0. -/
  | overflowWarning
  /-- A pop's incremented SP exceeded the stack top. -/
  | underflowWarning
  deriving DecidableEq, Repr

/-- A fatal condition with the info value of the spec's `raise` (spec/60_exceptions.md R160). The
spec gives each a whole effect on the state (R88), so a step takes it as a NEXT state and no step
answers `Outcome.fault` (log entry 2); the info value is what `Machine.fatalReport` reports. -/
inductive Fault where
  /-- Raised by dispatch for an opcode byte outside the nine (R163). Safe: the machine is HALTED. -/
  | unsupportedOperation (opcode : Byte)
  /-- Raised by every instruction with a register operand cell above 7 (R164). Unsafe only if the
  hardware used the low bits of the cell instead of halting (D4, log entry 8). -/
  | invalidRegister (operand : Byte)
  deriving DecidableEq, Repr

/-- What the model does not accept. No step refuses: only the program-load interface does. -/
inductive Refusal where
  /-- An instruction without a meaning; no arm of `exec` answers it. Safe. -/
  | notModelled (mnemonic : String)
  /-- `State.loadProgram` was given more than 256 words (R149, U18). Safe. -/
  | programTooLong (words : Nat)
  /-- `hostLoad` was called after the host had started the cycles (R149, U18). Safe. -/
  | loadAfterStart
  deriving DecidableEq, Repr

/-- The tuple `(MEM, x[0..7], pc, FL, RUN, CAUSE, OUT)` of R20. -/
structure State where
  /-- `MEM`, 256 cells (R40). -/
  mem : Memory
  /-- `x[0..7]`, the register file; register 7 is SP (R21, R23). -/
  x : Vector Byte 8
  /-- The program counter: the address of the current instruction (R26, R27). -/
  pc : Byte
  /-- `FL`, which no instruction reads or writes (R29). -/
  fl : Byte
  /-- `RUN` (R30). -/
  run : RunState
  /-- `CAUSE` (R31). -/
  cause : Cause
  /-- `OUT`, the events sent so far, oldest first (R151). -/
  out : List Event
  deriving DecidableEq, Repr

/-- The machine right after reset (R33, R180), with every cell of MEM at `Config.unwrittenByte`
(DESIGN CHOICE, log entry 1). -/
def State.reset : State where
  mem := []
  x := #v[0, 0, 0, 0, 0, 0, 0, Config.stackTop]
  pc := Config.resetPc
  fl := 0
  run := .running
  cause := .none
  out := []

end Sys2Proof.Machine
end

