-- ==== Sys2Proof/Machine/Ops.lean ====
section
/-! DEFINITION. The named operations over memory, registers, the diagnostic sink, the run control,
the sequencer and the stack controller (spec/00_scope.md R7, spec/20_memory.md R41,
spec/41_stack.md R101 to R103, spec/40_execution_cycle.md R86 to R88). -/

namespace Sys2Proof.Machine

/-! ## Memory -/

/-- `MemRead` on the cell list: total, no side effect (R41). -/
def Memory.read (m : Memory) (a : Byte) : Byte :=
  match m.find? (fun c => c.1 == a.toNat) with
  | some c => c.2
  | none => Config.unwrittenByte

/-- Puts a cell before the first cell of a higher address. -/
def Memory.insertCell (k : Nat) (v : Byte) : Memory → Memory
  | [] => [(k, v)]
  | c :: m => if k < c.1 then (k, v) :: c :: m else c :: insertCell k v m

/-- `MemWrite` on the cell list: cell `a` takes `v` and no other cell changes (R41). Writing what an
unlisted cell reads as removes the entry, so that equal memories are equal lists. -/
def Memory.write (m : Memory) (a v : Byte) : Memory :=
  let others := m.filter (fun c => c.1 != a.toNat)
  if v = Config.unwrittenByte then others else Memory.insertCell a.toNat v others

/-- The canonical form of a memory: addresses strictly rising, below 256, and no listed cell equal to
what an unlisted one reads as. -/
def Memory.wf (m : Memory) : Bool :=
  decide (m.Pairwise (fun c d => c.1 < d.1)) &&
    m.all (fun c => decide (c.1 < Config.memSize) && c.2 != Config.unwrittenByte)

/-- The memory whose first `n` cells hold `f` and whose others are unwritten. -/
def Memory.ofFirst (f : Byte → Byte) : Nat → Memory
  | 0 => []
  | n + 1 => (Memory.ofFirst f n).write (BitVec.ofNat 8 n) (f (BitVec.ofNat 8 n))

/-- The memory with contents `f`: any `MEM_INIT` (R33). -/
def Memory.ofContents (f : Byte → Byte) : Memory := Memory.ofFirst f Config.memSize

/-- `MemRead(a, 1)`. -/
def State.memRead (s : State) (a : Byte) : Byte := s.mem.read a

/-- `MemWrite(a, 1, v)`. -/
def State.memWrite (s : State) (a v : Byte) : State := { s with mem := s.mem.write a v }

/-! ## Registers -/

/-- `x[r]` (R7). -/
def State.reg (s : State) (r : Reg) : Byte := s.x[r]

/-- `x[r] <- v`: no register is hard-wired or guarded (R21, R25). -/
def State.setReg (s : State) (r : Reg) (v : Byte) : State := { s with x := s.x.set r.val v r.isLt }

/-- SP is register 7 (R23). -/
def State.sp (s : State) : Byte := s.reg Config.spIndex

/-- `SP <- v` is `x[7] <- v` (R7). -/
def State.setSp (s : State) (v : Byte) : State := s.setReg Config.spIndex v

/-- `pc <- target`. -/
def State.setPc (s : State) (target : Byte) : State := { s with pc := target }

/-! ## Diagnostic sink and run control -/

/-- `Emit(e)`: appends an event to OUT (R151). -/
def State.emit (s : State) (e : Event) : State := { s with out := s.out ++ [e] }

/-- `Halt(c)`: RUN and CAUSE are written; the rest of the cycle still completes (R87). -/
def State.halt (s : State) (c : Cause) : State := { s with run := .halted, cause := c }

/-- The CAUSE a fatal condition records (R160). -/
def Fault.cause : Fault → Cause
  | .unsupportedOperation _ => .unsupportedOperation
  | .invalidRegister _ => .invalidRegister

/-- `raise`: taking a fatal condition. Nothing is saved and nothing changes but RUN and CAUSE; pc
keeps the address of the instruction (R88, R163, R164, R167). There is no return from it: HALTED is
left only by reset (R168). -/
def State.raise (s : State) (f : Fault) : State := s.halt f.cause

/-! ## The program-counter sequencer -/

/-- `NextSeq(a, n)`: a sum of 256 or more becomes 0, it is not reduced modulo 256 (R86, D5). -/
def nextSeq (a : Byte) (n : Nat) : Byte :=
  if a.toNat + n + 1 ≥ Config.memSize then 0 else BitVec.ofNat 8 (a.toNat + n + 1)

/-- The sequencer's update after an instruction with `n` operand cells and PCF = 0 (R85). -/
def State.advance (s : State) (n : Nat) : State := s.setPc (nextSeq s.pc n)

/-! ## The stack controller -/

/-- `Push(v)`: at SP = 0 a warning and a halt without a write; else pre-decrement and write (R101). -/
def State.push (s : State) (v : Byte) : State :=
  if s.sp = Config.bottomGuard then
    (s.emit .overflowWarning).halt .stackOverflow
  else
    let s' := s.setSp (s.sp - 1)
    s'.memWrite s'.sp v

/-- The increment of SP after a pop: the 9-bit sum is compared before it is narrowed (R102, D11). -/
def State.bumpSp (s : State) : State :=
  if s.sp.toNat + 1 > Config.stackTop.toNat then
    (s.emit .underflowWarning).setSp Config.stackTop
  else
    s.setSp (BitVec.ofNat 8 (s.sp.toNat + 1))

/-- `PopTo(d)`: the register takes the cell at SP, then SP as it is now is incremented (R102, D13). -/
def State.popTo (s : State) (d : Reg) : State := (s.setReg d (s.memRead s.sp)).bumpSp

/-- `Peek()`: the cell at SP; no guard, no diagnostic, SP unchanged (R103). -/
def State.peek (s : State) : Byte := s.memRead s.sp

end Sys2Proof.Machine
end

