-- ==== Sys2Proof/Machine/Flags.lean ====
section
/-! DEFINITION. The flag computations: there are none. FL is 0 after reset and no instruction reads
or writes it; ADD and MUL give no carry and no overflow indication (spec/10_state.md R29). -/

namespace Sys2Proof.Machine

/-- FL after an ALU operation, from FL before it: unchanged (R29, spec/42_alu.md R110). -/
def flagsAfterAlu (fl : Byte) : Byte := fl

end Sys2Proof.Machine
end

