-- ==== Sys2Proof/Syntax.lean ====
section
/-! DEFINITION. The instruction set as syntax: the nine instructions of spec/30_encoding.md R66
with their operand cells. -/

namespace Sys2Proof

/-- One constructor per row of the opcode table. An operand is the whole operand cell as fetched: a
register cell may hold any byte here, and a cell above 7 is what InvalidRegister is about (R63). -/
inductive Instr where
  /-- `LDI Rd, imm`, format RI (spec/44_general.md R130). -/
  | ldi (d imm : Byte)
  /-- `PRN Rs`, format R (spec/44_general.md R131). -/
  | prn (s : Byte)
  /-- `PUSH Rs`, format R (spec/41_stack.md R104). -/
  | push (s : Byte)
  /-- `POP Rd`, format R (spec/41_stack.md R105). -/
  | pop (d : Byte)
  /-- `HLT`, format Z (spec/44_general.md R132). -/
  | hlt
  /-- `CALL Rt`, format R (spec/43_control_transfer.md R120). -/
  | call (t : Byte)
  /-- `RET`, format Z (spec/43_control_transfer.md R121). -/
  | ret
  /-- `ADD Ra, Rb`, format RR (spec/42_alu.md R111). -/
  | add (a b : Byte)
  /-- `MUL Ra, Rb`, format RR (spec/42_alu.md R112). -/
  | mul (a b : Byte)
  deriving DecidableEq, Repr

/-- The operation the dispatch multiplexer selects (spec/50_blocks_and_interfaces.md R142). -/
inductive Op where
  | ldi | prn | push | pop | hlt | call | ret | add | mul
  deriving DecidableEq, Repr

/-- The three dispatch tables (spec/30_encoding.md R65). -/
inductive Table where
  | pcSetting | alu | general
  deriving DecidableEq, Repr

/-- The four fields of an opcode byte (spec/30_encoding.md R61). -/
structure OpcodeFields where
  /-- `NOPS`, bits 7:6: the number of operand cells that follow. -/
  nops : BitVec 2
  /-- `ALUF`, bit 5: routed to the ALU. -/
  aluf : Bool
  /-- `PCF`, bit 4: the instruction writes pc itself. -/
  pcf : Bool
  /-- `OPID`, bits 3:0: the operation inside its table. -/
  opid : BitVec 4
  deriving DecidableEq, Repr

end Sys2Proof
end

