-- ==== Sys2Proof/WellFormed.lean ====
section
/-! DEFINITION. Well-formed instructions: every register operand cell names one of the eight
registers (spec/30_encoding.md R63). An immediate cell is never checked (R64). -/

namespace Sys2Proof

/-- The operand cell that names register `r` (R73: a register is written as its index). -/
def regCell (r : Reg) : Byte := BitVec.ofNat 8 r.val

/-- The register operand cells of an instruction, in the order they are checked
(spec/60_exceptions.md R166). -/
def Instr.registerCells : Instr → List Byte
  | .ldi d _ => [d]
  | .prn s => [s]
  | .push s => [s]
  | .pop d => [d]
  | .hlt => []
  | .call t => [t]
  | .ret => []
  | .add a b => [a, b]
  | .mul a b => [a, b]

/-- A register cell is legal when its value is 0..7; no bit of it is ignored (R63). -/
def registerCellLegal (b : Byte) : Bool := decide (b.toNat < 8)

/-- Every register operand cell is legal. -/
def Instr.wellFormed (i : Instr) : Bool := i.registerCells.all registerCellLegal

end Sys2Proof
end

