-- ==== Sys2Proof/Machine/Operands.lean ====
section
/-! DEFINITION. The operand forms: a register operand cell with its check, an immediate cell
(spec/30_encoding.md R63, R64). -/

namespace Sys2Proof.Machine

/-- What an instruction answers. -/
abbrev Result := Host.Outcome State Fault Refusal

/-- `Reg(b)`: the register a cell names, or the fatal condition InvalidRegister (R63, R164). -/
def checkReg (b : Byte) : Except Fault Reg :=
  if h : b.toNat < 8 then .ok ⟨b.toNat, h⟩ else .error (.invalidRegister b)

/-- Runs `k` with the register a cell names; a cell above 7 raises InvalidRegister, before `k` writes
anything, and ends the cycle there (R84, R88). -/
def withReg (b : Byte) (s : State) (k : Reg → State) : Result :=
  match checkReg b with
  | .ok r => .next (k r)
  | .error f => .next (s.raise f)

/-- The two register operands of format RR, the first checked first (R166). -/
def withRegs (a b : Byte) (s : State) (k : Reg → Reg → State) : Result :=
  match checkReg a, checkReg b with
  | .ok ra, .ok rb => .next (k ra rb)
  | .error f, _ => .next (s.raise f)
  | .ok _, .error f => .next (s.raise f)

/-- The value of an immediate cell: exactly as stored (R64). -/
def immediate (cell : Byte) : Byte := cell

end Sys2Proof.Machine
end

