-- ==== Sys2Proof/Machine/Alu.lean ====
section
/-! DEFINITION. The ALU and its two instructions, ADD and MUL (spec/42_alu.md). -/

namespace Sys2Proof.Machine

/-- Unsigned sum, low 8 bits (R111, R113). -/
def aluAdd (a b : Byte) : Byte := BitVec.ofNat 8 (a.toNat + b.toNat)

/-- Unsigned product, low 8 bits of 16 (R112, R113). -/
def aluMul (a b : Byte) : Byte := BitVec.ofNat 8 (a.toNat * b.toNat)

/-- `apply`: both sources are read, then the first operand register is written (R110). -/
def State.aluApply (s : State) (f : Byte → Byte → Byte) (a b : Reg) : State :=
  let s' := s.setReg a (f (s.reg a) (s.reg b))
  { s' with fl := flagsAfterAlu s'.fl }

/-- `ADD Ra, Rb` (R111). -/
def execAdd (a b : Byte) (s : State) : Result :=
  withRegs a b s fun ra rb => (s.aluApply aluAdd ra rb).advance 2

/-- `MUL Ra, Rb` (R112). -/
def execMul (a b : Byte) (s : State) : Result :=
  withRegs a b s fun ra rb => (s.aluApply aluMul ra rb).advance 2

end Sys2Proof.Machine
end

