-- ==== Sys2Proof/Machine/Control.lean ====
section
/-! DEFINITION. The PC-setting table: CALL and RET (spec/43_control_transfer.md). Neither gets the
sequencer's advance (spec/40_execution_cycle.md R85). -/

namespace Sys2Proof.Machine

/-- `pc <- x[t]`, the register read in the state reached so far. -/
def State.jumpToReg (s : State) (t : Reg) : State := s.setPc (s.reg t)

/-- `CALL Rt` (R120): the return address is `NextSeq(pc, 1)` (D7), the target register is read after
the push (D14), and pc is loaded on an overflow too (R87, D9). -/
def execCall (t : Byte) (s : State) : Result :=
  withReg t s fun rt => (s.push (nextSeq s.pc 1)).jumpToReg rt

/-- The return: pc takes the cell at SP; with `pops` SP is then incremented under the underflow
guard, the alternative R121 writes out for `RET_POPS = true`. -/
def State.returnTo (s : State) (pops : Bool) : State :=
  (if pops then s.bumpSp else s).setPc s.peek

/-- `RET` (R121): `RET_POPS = false` on this hardware (D8, log entry 9). -/
def execRet (s : State) : Result := .next (s.returnTo Config.retPops)

end Sys2Proof.Machine
end

