-- ==== Sys2Proof/Machine/General.lean ====
section
/-! DEFINITION. LDI, PRN and HLT (spec/44_general.md). -/

namespace Sys2Proof.Machine

/-- `LDI Rd, imm` (R130): register 7 is written like any other, with no guard. -/
def execLdi (d imm : Byte) (s : State) : Result :=
  withReg d s fun rd => (s.setReg rd (immediate imm)).advance 2

/-- `PRN Rs` (R131): one event carrying the register's unsigned value. -/
def execPrn (r : Byte) (s : State) : Result :=
  withReg r s fun rs => (s.emit (.print (s.reg rs))).advance 1

/-- `HLT` (R132): HALTED at the end of the cycle, pc advanced past the HLT (R87, D9). -/
def execHlt (s : State) : Result := .next ((s.halt .haltInstruction).advance 0)

end Sys2Proof.Machine
end

