-- ==== Sys2Proof/Machine/Stack.lean ====
section
/-! DEFINITION. PUSH and POP (spec/41_stack.md). -/

namespace Sys2Proof.Machine

/-- `PUSH Rs` (R104): the register is sampled before SP is decremented (D12); pc advances on an
overflow too (R87, D9). -/
def execPush (r : Byte) (s : State) : Result :=
  withReg r s fun rs => (s.push (s.reg rs)).advance 1

/-- `POP Rd` (R105). -/
def execPop (d : Byte) (s : State) : Result :=
  withReg d s fun rd => (s.popTo rd).advance 1

end Sys2Proof.Machine
end

