-- ==== Sys2Proof/Decode.lean ====
section
/-! DEFINITION. The instruction decoder, the dispatch multiplexer's choice of operation, and the
encoder (spec/30_encoding.md, spec/40_execution_cycle.md R82 to R84). -/

namespace Sys2Proof

/-- The opcode byte of each operation: the parameters `OPC_*` (R66). The low nibbles of all but ADD
and MUL are general knowledge of the LS-8 machine, PRESUMED (R67, D2, log entry 4). -/
def opcodeByte : Op → Byte
  | .ldi => 0x82
  | .prn => 0x47
  | .push => 0x45
  | .pop => 0x46
  | .hlt => 0x01
  | .call => 0x50
  | .ret => 0x11
  | .add => 0xA0
  | .mul => 0xA2

/-- Bit-field extraction: `NOPS = b[7:6]`, `ALUF = b[5]`, `PCF = b[4]`, `OPID = b[3:0]` (R61). -/
def opcodeFields (b : Byte) : OpcodeFields where
  nops := b.extractLsb 7 6
  aluf := b.getLsbD 5
  pcf := b.getLsbD 4
  opid := b.extractLsb 3 0

/-- The table the two flag bits choose; the PC-setting flag is tested first (R65, D27). -/
def dispatchTable (f : OpcodeFields) : Table :=
  if f.pcf then .pcSetting else if f.aluf then .alu else .general

/-- The operations registered in each table (R66). -/
def tableOps : Table → List Op
  | .pcSetting => [.call, .ret]
  | .alu => [.add, .mul]
  | .general => [.ldi, .prn, .push, .pop, .hlt]

/-- The operation selected by a fetched opcode byte, if any: looked for in the table its flags
choose and recognised by the whole byte (R68, R83, D3). -/
def selectOp (ir : Byte) : Option Op :=
  (tableOps (dispatchTable (opcodeFields ir))).find? (fun op => opcodeByte op == ir)

/-- Operand routing: the first following cell is the first argument, the second the second, and
cells the operation does not take are discarded (R43, R84). -/
def routeOperands (op : Op) (op1 op2 : Byte) : Instr :=
  match op with
  | .ldi => .ldi op1 op2
  | .prn => .prn op1
  | .push => .push op1
  | .pop => .pop op1
  | .hlt => .hlt
  | .call => .call op1
  | .ret => .ret
  | .add => .add op1 op2
  | .mul => .mul op1 op2

/-- Why bytes are no instruction. -/
inductive DecodeError where
  /-- The opcode byte is not one of the nine (R68): the machine raises UnsupportedOperation. -/
  | unsupportedOperation (opcode : Byte)
  /-- A byte list ends inside an instruction. Only `decodeBytes` answers this: the machine always
  fetches three cells. -/
  | truncated (opcode : Byte)
  /-- A byte list is empty. Only `decodeBytes` answers this. -/
  | noBytes
  deriving DecidableEq, Repr

/-- The decoder: from the opcode byte and the two prefetched cells (R81 to R84). Total; a pure
function of the three bytes. -/
def decode (ir op1 op2 : Byte) : Except DecodeError Instr :=
  match selectOp ir with
  | some op => .ok (routeOperands op op1 op2)
  | none => .error (.unsupportedOperation ir)

/-- The operation an instruction performs. -/
def Instr.op : Instr → Op
  | .ldi _ _ => .ldi
  | .prn _ => .prn
  | .push _ => .push
  | .pop _ => .pop
  | .hlt => .hlt
  | .call _ => .call
  | .ret => .ret
  | .add _ _ => .add
  | .mul _ _ => .mul

/-- The operand cells of an instruction in the order of its format (R62). -/
def Instr.operandCells : Instr → List Byte
  | .ldi d imm => [d, imm]
  | .prn s => [s]
  | .push s => [s]
  | .pop d => [d]
  | .hlt => []
  | .call t => [t]
  | .ret => []
  | .add a b => [a, b]
  | .mul a b => [a, b]

/-- The length of an instruction in cells (R60, R69). -/
def Instr.length (i : Instr) : Nat := i.operandCells.length + 1

/-- Encoding: the opcode byte, then one cell per operand (R73). -/
def encode (i : Instr) : List Byte := opcodeByte i.op :: i.operandCells

/-- Decoding the first instruction of a byte list, with the rest of the list. -/
def decodeBytes (bs : List Byte) : Except DecodeError (Instr × List Byte) :=
  match bs with
  | [] => .error .noBytes
  | ir :: rest =>
    match decode ir (rest.getD 0 0) (rest.getD 1 0) with
    | .error e => .error e
    | .ok i => if i.length ≤ bs.length then .ok (i, bs.drop i.length) else .error (.truncated ir)

/-- Cell `k` of an instruction given as one number: bit 0 is the least significant bit of the first
cell, and every bit from `nbits` up is 0. -/
def tableWordCell (nbits w k : Nat) : Byte := BitVec.ofNat 8 (w % 2 ^ nbits / 2 ^ (8 * k))

/-- The instruction the decoder reads from a word numbered as the opcode table numbers it. -/
def decodeTableWord (nbits w : Nat) : Option Instr :=
  match decode (tableWordCell nbits w 0) (tableWordCell nbits w 1) (tableWordCell nbits w 2) with
  | .ok i => some i
  | .error _ => none

end Sys2Proof
end

