-- ==== Sys2Proof/Machine/Fetch.lean ====
section
/-! DEFINITION. Fetching an instruction: the three cells, and storing three cells where the next
fetch reads (spec/40_execution_cycle.md R81). -/

namespace Sys2Proof.Machine

/-- The address of instruction cell `k`: `(pc + k) mod 256`, unlike the sequencer's wrap (R81, D6). -/
def State.cellAddr (s : State) (k : Nat) : Byte := s.pc + BitVec.ofNat 8 k

/-- The fetched opcode byte `ir`. -/
def State.fetchIr (s : State) : Byte := s.memRead (s.cellAddr 0)

/-- The first prefetched operand cell. -/
def State.fetchOp1 (s : State) : Byte := s.memRead (s.cellAddr 1)

/-- The second prefetched operand cell. -/
def State.fetchOp2 (s : State) : Byte := s.memRead (s.cellAddr 2)

/-- Fetch and decode: all three cells are read whatever the instruction is (R81, R82). -/
def State.fetchDecode (s : State) : Except DecodeError Instr :=
  decode s.fetchIr s.fetchOp1 s.fetchOp2

/-- Stores the three cells of a table word where the next fetch reads them. -/
def State.storeFetchCells (s : State) (nbits w : Nat) : State :=
  ((s.memWrite (s.cellAddr 0) (tableWordCell nbits w 0)).memWrite (s.cellAddr 1)
    (tableWordCell nbits w 1)).memWrite (s.cellAddr 2) (tableWordCell nbits w 2)

end Sys2Proof.Machine
end

