-- ==== Sys2Proof/Machine/Report.lean ====
section
/-! DEFINITION. The report of a fatal condition: the info value of the spec's `raise`, which no
register records (spec/60_exceptions.md R160, R166). -/

namespace Sys2Proof.Machine

/-- The first illegal register operand cell of an instruction, as InvalidRegister (R166: the first
operand is reported when both are bad). -/
def operandFault (i : Instr) : Option Fault :=
  (i.registerCells.find? (fun b => !registerCellLegal b)).map .invalidRegister

/-- The fatal condition that the next cycle raises, if any; none in HALTED, where no cycle happens.
UnsupportedOperation is decided from the opcode byte alone, before any operand (R166). -/
def fatalReport (s : State) : Option Fault :=
  match s.run with
  | .halted => none
  | .running =>
    match s.fetchDecode with
    | .ok i => operandFault i
    | .error _ => some (.unsupportedOperation s.fetchIr)

end Sys2Proof.Machine
end

