-- ==== Sys2Proof/Machine/Step.lean ====
section
/-! DEFINITION. One cycle (spec/40_execution_cycle.md R91), and the placing of one instruction where
the next cycle fetches it. -/

namespace Sys2Proof.Machine

/-- One step. In HALTED there is no cycle and the state does not change (R80, log entry 3). In
RUNNING the three cells at pc are fetched and decoded and the selected operation runs; an opcode byte
outside the nine raises UnsupportedOperation (R83, R163). -/
def step (s : State) : Host.Outcome State Fault Refusal :=
  match s.run with
  | .halted => .next s
  | .running =>
    match s.fetchDecode with
    | .ok i => exec i s
    | .error _ => .next (s.raise (.unsupportedOperation s.fetchIr))

/-- `s` with an instruction stored where `step` fetches next. A HALTED machine fetches nothing, so
RUN is RUNNING and CAUSE None in the answer, as they are in `s` if it can fetch at all (R31). It
stands for the program loader of spec/50_blocks_and_interfaces.md R149 (log entry 5). -/
def State.withFetchWord (s : State) (nbits w : Nat) : State :=
  { s.storeFetchCells nbits w with run := .running, cause := .none }

end Sys2Proof.Machine
end

