-- ==== Sys2Proof/Machine/Boundary.lean ====
section
/-! DEFINITION. The boundary interfaces: reset, program load, run and return of control
(spec/50_blocks_and_interfaces.md R148 to R152, spec/70_reset_and_hazards.md R181). -/

namespace Sys2Proof.Machine

/-- The machine right after reset for any contents `memInit` of the memory (R33: `MEM_INIT` is open).
`State.reset` is the case of `Config.unwrittenByte` everywhere. -/
def State.resetWith (memInit : Byte → Byte) : State :=
  { State.reset with mem := Memory.ofContents memInit }

/-- The loader's writes: `MemWrite(a, 1, w)` for each word in order at ascending addresses (R149). -/
def State.placeWords (s : State) (a : Byte) : List Byte → State
  | [] => s
  | w :: ws => (s.memWrite a w).placeWords (a + 1) ws

/-- The program-load interface: at most 256 words, from address 0; a longer program is refused (R149,
D16). The loader writes memory only. -/
def State.loadProgram (s : State) (ws : List Byte) : Result :=
  if ws.length ≤ Config.memSize then .next (s.placeWords 0 ws)
  else .refused (.programTooLong ws.length)

/-- The block with what the host knows of the run: whether cycles have been started since reset. -/
structure Session where
  /-- The state of the block. -/
  machine : State
  /-- Whether the host has started the cycles (R150); not state of the block. -/
  started : Bool
  deriving DecidableEq, Repr

/-- The host resets the block, at any time, from any state (R148, D24). -/
def hostReset (memInit : Byte → Byte) : Session := ⟨State.resetWith memInit, false⟩

/-- The host loads a program: only between reset and the first cycle (R149, D16). -/
def hostLoad (ws : List Byte) (x : Session) : Host.Outcome Session Fault Refusal :=
  if x.started then .refused .loadAfterStart
  else
    match x.machine.loadProgram ws with
    | .next s => .next ⟨s, false⟩
    | .fault f => .fault f
    | .refused r => .refused r

/-- The host lets one cycle happen (R150; single step, R152). -/
def hostCycle (x : Session) : Host.Outcome Session Fault Refusal :=
  match step x.machine with
  | .next s => .next ⟨s, true⟩
  | .fault f => .fault f
  | .refused r => .refused r

/-- `run()`: cycles while RUN is RUNNING, under the host's step budget (R90, R91, R152). -/
def hostRun : Nat → Session → Host.Outcome Session Fault Refusal
  | 0, x => .next x
  | n + 1, x =>
    match x.machine.run with
    | .halted => .next x
    | .running =>
      match hostCycle x with
      | .next y => hostRun n y
      | .fault f => .fault f
      | .refused r => .refused r

end Sys2Proof.Machine
end

