-- ==== Sys2Proof/Safety.lean ====
section
/-! DEFINITION. What counts as a legal state, as a good or faulted end of a run, and the frame
predicates the statements are written in. -/

namespace Sys2Proof.Machine

/-- A legal state: memory in canonical form, FL at the value it has for ever (R29), and CAUSE None
exactly while RUNNING (R31). SP is not bounded: R25 forbids assuming it. -/
structure State.Legal (s : State) : Prop where
  memory : s.mem.wf = true
  flags : s.fl = 0
  cause : s.run = .running ↔ s.cause = .none

/-- The clean end of a run: HLT (spec/44_general.md R132). -/
def State.CleanEnd (s : State) : Prop := s.run = .halted ∧ s.cause = .haltInstruction

/-- The end of a run by a fatal condition, never a good end (spec/93_implementation_defined.md U2). -/
def State.FatalEnd (s : State) : Prop :=
  s.run = .halted ∧ (s.cause = .unsupportedOperation ∨ s.cause = .invalidRegister)

/-- A safe run never ends in a fatal condition. -/
def State.SafeFor (s : State) (budget : Nat) : Prop :=
  ∀ k ≤ budget, ∀ t, Host.Core.run Sys2Proof.core k s = .next t → ¬ State.FatalEnd t

/-- Every register not in `rs` is as before. -/
def SameRegistersExcept (rs : List Reg) (s t : State) : Prop := ∀ r, r ∉ rs → t.reg r = s.reg r

/-- Every cell of memory not in `cells` reads as before. -/
def SameMemoryExcept (cells : List Byte) (s t : State) : Prop :=
  ∀ a, a ∉ cells → t.memRead a = s.memRead a

/-- FL, RUN and CAUSE are as before. -/
def SameStatus (s t : State) : Prop := t.fl = s.fl ∧ t.run = s.run ∧ t.cause = s.cause

/-- `t` is `s` after a fatal condition: only RUN and CAUSE differ (R88, R167). -/
def FatalFrom (c : Cause) (s t : State) : Prop :=
  t.run = .halted ∧ t.cause = c ∧ t.pc = s.pc ∧ t.fl = s.fl ∧ t.out = s.out ∧
    SameRegistersExcept [] s t ∧ SameMemoryExcept [] s t

/-- The registers an instruction may write: its destination operand, and SP for the stack
operations that move it (spec/10_state.md R24). -/
def writtenRegs : Instr → List Reg
  | .ldi d _ => (checkReg d).toOption.toList
  | .prn _ => []
  | .push _ => [Config.spIndex]
  | .pop d => Config.spIndex :: (checkReg d).toOption.toList
  | .hlt => []
  | .call _ => [Config.spIndex]
  | .ret => []
  | .add a _ => (checkReg a).toOption.toList
  | .mul a _ => (checkReg a).toOption.toList

/-- The registers an instruction may read or write: its operand registers, and SP for the four stack
operations (spec/10_state.md R24). -/
def touchedRegs : Instr → List Reg
  | .ldi d _ => (checkReg d).toOption.toList
  | .prn s => (checkReg s).toOption.toList
  | .push s => Config.spIndex :: (checkReg s).toOption.toList
  | .pop d => Config.spIndex :: (checkReg d).toOption.toList
  | .hlt => []
  | .call t => Config.spIndex :: (checkReg t).toOption.toList
  | .ret => [Config.spIndex]
  | .add a b => (checkReg a).toOption.toList ++ (checkReg b).toOption.toList
  | .mul a b => (checkReg a).toOption.toList ++ (checkReg b).toOption.toList

/-- The events an instruction with legal operands sends in state `s`
(spec/50_blocks_and_interfaces.md R151). -/
def eventsOf (i : Instr) (s : State) : List Event :=
  match i with
  | .prn r => (checkReg r).toOption.toList.map (fun rs => .print (s.reg rs))
  | .push _ => if s.sp = 0 then [.overflowWarning] else []
  | .call _ => if s.sp = 0 then [.overflowWarning] else []
  | .pop d =>
    let popped := if d = 7 then s.memRead s.sp else s.sp
    if popped.toNat + 1 > 0xF4 then [.underflowWarning] else []
  | .ldi _ _ | .hlt | .ret | .add _ _ | .mul _ _ => []

/-- Executes instructions one after the other, each by its meaning. -/
def execAll : List Instr → State → Result
  | [], s => .next s
  | i :: is, s =>
    match exec i s with
    | .next t => execAll is t
    | .fault f => .fault f
    | .refused r => .refused r

/-- Pops into the named registers one after the other and collects what each destination register
holds right after its POP, with the last state. -/
def popValues : List Reg → State → Option (List Byte × State)
  | [], s => some ([], s)
  | d :: ds, s =>
    match exec (.pop (regCell d)) s with
    | .next t => (popValues ds t).map fun p => (t.reg d :: p.1, p.2)
    | .fault _ => none
    | .refused _ => none

end Sys2Proof.Machine
end

