-- ==== Sys2Proof/Certificates/Slice0/Obligations.lean ====
section
/-! DEFINITION. The statements for the provers. Rules R<n>, decisions D<n> and files are those of
spec/; a log entry <n> is notes/assumptions/<n>.md. Three things run through the file: `nextSeq` is
R86's, a reset to 0 (decision D5, log entry 11); CAUSE and OUT are the spec's own bookkeeping
(decisions D22 and D19, log entry 15); a fatal condition leaves all else, pc included (`FatalFrom`:
decision D10, log entry 16). -/

open Sys2Proof Sys2Proof.Machine

/-! ## Encoding -/

/-- Nine instruction words written out from R66 and R62, with the first cell in the low bits (decision
D23, log entry 19), decode to their instructions. The low nibbles of all but ADD and MUL rest on D2
(log entry 4). -/
def Obligations.SpecWordsDecode : Prop :=
  decodeTableWord 24 0xC80382 = some (.ldi 3 200) ∧ decodeTableWord 16 0x0247 = some (.prn 2) ∧
    decodeTableWord 16 0x0145 = some (.push 1) ∧ decodeTableWord 16 0x0646 = some (.pop 6) ∧
    decodeTableWord 8 0x01 = some .hlt ∧ decodeTableWord 16 0x0150 = some (.call 1) ∧
    decodeTableWord 8 0x11 = some .ret ∧ decodeTableWord 24 0x0100A0 = some (.add 0 1) ∧
    decodeTableWord 24 0x0100A2 = some (.mul 0 1)

/-- R61: where the four fields of an opcode byte lie, and what they say of every instruction; the OPIDs
of all but ADD and MUL rest on D2 (log entry 4). That an instruction with PCF = 1 writes pc itself is
`SequencerFollowsThePcSettingFlag`. -/
def Obligations.OpcodeByteFields : Prop :=
  (∀ b : Byte, (opcodeFields b).nops.toNat = b.toNat / 64 ∧
    ((opcodeFields b).aluf = true ↔ b.toNat / 32 % 2 = 1) ∧
    ((opcodeFields b).pcf = true ↔ b.toNat / 16 % 2 = 1) ∧
    (opcodeFields b).opid.toNat = b.toNat % 16) ∧
  (∀ i : Instr, (opcodeFields (opcodeByte i.op)).nops.toNat = i.operandCells.length ∧
    i.operandCells.length ≤ 2 ∧
    ((opcodeFields (opcodeByte i.op)).aluf = true ↔ i.op = .add ∨ i.op = .mul) ∧
    ((opcodeFields (opcodeByte i.op)).pcf = true ↔ i.op = .call ∨ i.op = .ret)) ∧
  (∀ p q : Op, dispatchTable (opcodeFields (opcodeByte p)) = dispatchTable (opcodeFields (opcodeByte q)) →
    (opcodeFields (opcodeByte p)).opid = (opcodeFields (opcodeByte q)).opid → p = q)

/-- R65: bit 4 is tested first, then bit 5; a byte with both bits set is no instruction (the last is
the spec's decision D27, log entry 17). -/
def Obligations.FlagBitsChooseTheTable : Prop :=
  ∀ b : Byte, (b.toNat / 16 % 2 = 1 → dispatchTable (opcodeFields b) = .pcSetting) ∧
    (b.toNat / 16 % 2 = 0 → b.toNat / 32 % 2 = 1 → dispatchTable (opcodeFields b) = .alu) ∧
    (b.toNat / 16 % 2 = 0 → b.toNat / 32 % 2 = 0 → dispatchTable (opcodeFields b) = .general) ∧
    (b.toNat / 16 % 2 = 1 → b.toNat / 32 % 2 = 1 →
      ∀ op1 op2, decode b op1 op2 = .error (.unsupportedOperation b))

/-- The whole-byte decoder of R68 (decision D3, log entry 17): exactly nine bytes are instructions,
whatever follows them. The low nibbles of seven of them rest on D2 (log entry 4). -/
def Obligations.ExactlyNineOpcodeBytes : Prop :=
  ∀ ir op1 op2 : Byte,
    (ir ∈ ([0x82, 0x47, 0x45, 0x46, 0x01, 0x50, 0x11, 0xA0, 0xA2] : List Byte) →
      ∃ i, decode ir op1 op2 = .ok i ∧ opcodeByte i.op = ir) ∧
    (ir ∉ ([0x82, 0x47, 0x45, 0x46, 0x01, 0x50, 0x11, 0xA0, 0xA2] : List Byte) →
      decode ir op1 op2 = .error (.unsupportedOperation ir))

/-- Decoding the encoding of any instruction, whatever bytes follow it, gives it back and leaves the
bytes that follow (R60, R62, R69, R73). -/
def Obligations.DecodeOfEncodeIsTheInstruction : Prop :=
  ∀ (i : Instr) (rest : List Byte), decodeBytes (encode i ++ rest) = .ok (i, rest)

/-- The other direction: the encoding of a decoded instruction is the cells it was decoded from, as
many as the opcode byte's NOPS says (R60, R69, R84). -/
def Obligations.EncodeOfDecodeIsTheCells : Prop :=
  ∀ (ir op1 op2 : Byte) (i : Instr), decode ir op1 op2 = .ok i →
    encode i = [ir, op1, op2].take ((opcodeFields ir).nops.toNat + 1)

/-! ## Memory -/

/-- R41: a read gives the most recent write to its address, or what the cell held before; a write
changes no other piece of state. -/
def Obligations.ReadGivesTheMostRecentWrite : Prop :=
  (∀ (s : State) (ws : List (Byte × Byte)) (a : Byte),
    (ws.foldl (fun u w => u.memWrite w.1 w.2) s).memRead a =
      ((ws.reverse.find? (fun w => w.1 == a)).map Prod.snd).getD (s.memRead a)) ∧
  (∀ (s : State) (a v : Byte), SameRegistersExcept [] s (s.memWrite a v) ∧
    SameMemoryExcept [a] s (s.memWrite a v) ∧ SameStatus s (s.memWrite a v) ∧
    (s.memWrite a v).pc = s.pc ∧ (s.memWrite a v).out = s.out)

/-- The model's canonical form (log entry 1): memories that read the same are the same data. -/
def Obligations.CanonicalMemoriesThatReadAlikeAreEqual : Prop :=
  ∀ m n : Memory, m.wf = true → n.wf = true → (∀ a, m.read a = n.read a) → m = n

/-! ## The cycle -/

/-- One cycle runs the instruction decoded from the three cells at pc, pc + 1 and pc + 2 modulo 256
(R81, R91; the modulus is decision D6, log entry 11; the order of the cells D23, log entry 19). -/
def Obligations.StepRunsTheDecodedInstruction : Prop :=
  ∀ (s : State) (i : Instr), s.run = .running →
    decode (s.memRead s.pc) (s.memRead (s.pc + 1)) (s.memRead (s.pc + 2)) = .ok i →
    step s = exec i s

/-- In HALTED no number of steps changes the state (R80; that a step then answers the same state is
log entry 3). -/
def Obligations.HaltedMachineNeverChanges : Prop :=
  ∀ s : State, s.run = .halted → ∀ k, Host.Core.run Sys2Proof.core k s = .next s

/-- No step ends in a fault or a refusal: every condition of R160 has its effect (log entry 2). -/
def Obligations.EveryStepAnswersANextState : Prop := ∀ s : State, ∃ t, step s = .next t

/-- An opcode byte outside the nine halts the machine with nothing else changed (R163, R88: decision
D10, log entry 16); the report names the byte. That only these nine are instructions is decision D3
(log entry 17); the low nibbles of seven of them are PRESUMED (D2, log entry 4). -/
def Obligations.UnsupportedOperationOnlyHalts : Prop :=
  ∀ s : State, s.run = .running →
    s.memRead s.pc ∉ ([0x82, 0x47, 0x45, 0x46, 0x01, 0x50, 0x11, 0xA0, 0xA2] : List Byte) →
    (∃ t, step s = .next t ∧ FatalFrom .unsupportedOperation s t) ∧
      fatalReport s = some (.unsupportedOperation (s.memRead s.pc))

/-- A register operand cell above 7 halts the machine with nothing else changed, SP = 0 or not (R164,
R166: decisions D4 and D29, log entries 8 and 16). -/
def Obligations.InvalidRegisterOnlyHalts : Prop :=
  ∀ (i : Instr) (s : State), (∃ b ∈ i.registerCells, 7 < b.toNat) →
    ∃ t, exec i s = .next t ∧ FatalFrom .invalidRegister s t

/-- The reported fatal condition is the one the cycle takes, and where none is reported none is taken;
of two bad operands the first is reported (R166: decision D29, log entry 16). -/
def Obligations.ReportedFatalConditionIsTaken : Prop :=
  ∀ s : State, s.run = .running →
    (∀ f, fatalReport s = some f → ∃ t, step s = .next t ∧ FatalFrom f.cause s t) ∧
    (fatalReport s = none → s.cause = .none → ∃ t, step s = .next t ∧
      t.cause ≠ .unsupportedOperation ∧ t.cause ≠ .invalidRegister) ∧
    (∀ a b, 7 < a.toNat → s.fetchDecode = .ok (.add a b) ∨ s.fetchDecode = .ok (.mul a b) →
      fatalReport s = some (.invalidRegister a)) ∧
    (∀ a b, a.toNat ≤ 7 → 7 < b.toNat →
      s.fetchDecode = .ok (.add a b) ∨ s.fetchDecode = .ok (.mul a b) →
      fatalReport s = some (.invalidRegister b))

/-- The sequencer's next address: any sum of 256 or more becomes 0 (R86: decision D5, log entry 11). -/
def Obligations.NextSeqResetsToZero : Prop :=
  ∀ (a : Byte) (n : Nat), (256 ≤ a.toNat + n + 1 → nextSeq a n = 0) ∧
    (a.toNat + n + 1 < 256 → (nextSeq a n).toNat = a.toNat + n + 1)

/-- R85: with PCF = 0 the cycle ends with the automatic advance by the opcode byte's NOPS; with
PCF = 1 pc is what CALL or RET wrote. That HLT and an overflowing PUSH or CALL finish their cycle is
R87's decision D9 (log entry 10); that CALL reads its register after the push is R120's, for R7
decision D14 (log entry 12); that RET's value is the cell at SP is R121's. -/
def Obligations.SequencerFollowsThePcSettingFlag : Prop :=
  ∀ (s : State) (i : Instr), s.run = .running → s.fetchDecode = .ok i → i.wellFormed = true →
    ∃ t, step s = .next t ∧
      ((opcodeFields (s.memRead s.pc)).pcf = false →
        t.pc = nextSeq s.pc (opcodeFields (s.memRead s.pc)).nops.toNat) ∧
      ((opcodeFields (s.memRead s.pc)).pcf = true →
        (∃ r, i = .call (regCell r) ∧ t.pc = t.reg r) ∨ (i = .ret ∧ t.pc = s.memRead s.sp))

/-! ## LDI, PRN, HLT -/

/-- R130 (its InvalidRegister clause is decision D4, log entry 8). -/
def Obligations.LdiLoadsTheImmediate : Prop :=
  (∀ (s : State) (r : Reg) (v : Byte), ∃ t, exec (.ldi (regCell r) v) s = .next t ∧
    t.reg r = v ∧ SameRegistersExcept [r] s t ∧ SameMemoryExcept [] s t ∧ SameStatus s t ∧
    t.out = s.out ∧ t.pc = nextSeq s.pc 2) ∧
  (∀ (s : State) (b v : Byte), 7 < b.toNat →
    ∃ t, exec (.ldi b v) s = .next t ∧ FatalFrom .invalidRegister s t)

/-- R131 (its InvalidRegister clause is decision D4, log entry 8). -/
def Obligations.PrnSendsTheRegister : Prop :=
  (∀ (s : State) (r : Reg), ∃ t, exec (.prn (regCell r)) s = .next t ∧
    t.out = s.out ++ [.print (s.reg r)] ∧ SameRegistersExcept [] s t ∧ SameMemoryExcept [] s t ∧
    SameStatus s t ∧ t.pc = nextSeq s.pc 1) ∧
  (∀ (s : State) (b : Byte), 7 < b.toNat →
    ∃ t, exec (.prn b) s = .next t ∧ FatalFrom .invalidRegister s t)

/-- R132: HLT writes RUN and CAUSE, advances pc past itself (R87: decision D9, log entry 10), and no
later step changes anything (the last in the form of log entry 3). -/
def Obligations.HltHaltsAndAdvances : Prop :=
  ∀ s : State, ∃ t, exec .hlt s = .next t ∧ t.run = .halted ∧ t.cause = .haltInstruction ∧
    t.pc = nextSeq s.pc 0 ∧ SameRegistersExcept [] s t ∧ SameMemoryExcept [] s t ∧ t.fl = s.fl ∧
    t.out = s.out ∧ step t = .next t

/-! ## Stack -/

/-- R101: the push primitive on any value, guarded at SP = 0 and nowhere else. -/
def Obligations.PushPrimitiveIsGuardedAtZero : Prop :=
  ∀ (s : State) (v : Byte),
    (s.sp = 0 → (s.push v).out = s.out ++ [.overflowWarning] ∧ (s.push v).run = .halted ∧
      (s.push v).cause = .stackOverflow ∧ SameRegistersExcept [] s (s.push v) ∧
      SameMemoryExcept [] s (s.push v) ∧ (s.push v).fl = s.fl ∧ (s.push v).pc = s.pc) ∧
    (s.sp ≠ 0 → (s.push v).sp.toNat + 1 = s.sp.toNat ∧ (s.push v).memRead (s.push v).sp = v ∧
      SameMemoryExcept [(s.push v).sp] s (s.push v) ∧
      SameRegistersExcept [Config.spIndex] s (s.push v) ∧ SameStatus s (s.push v) ∧
      (s.push v).out = s.out ∧ (s.push v).pc = s.pc)

/-- PUSH with SP not 0, R7 included: the register as it was before the decrement is stored at SP - 1
(R104; for R7 the decision D12, log entry 12). Its InvalidRegister form is `InvalidRegisterOnlyHalts`. -/
def Obligations.PushStoresTheRegister : Prop :=
  ∀ (s : State) (r : Reg), s.sp ≠ 0 → ∃ t, exec (.push (regCell r)) s = .next t ∧
    t.sp.toNat + 1 = s.sp.toNat ∧ t.memRead (s.sp - 1) = s.reg r ∧
    SameMemoryExcept [s.sp - 1] s t ∧ SameRegistersExcept [Config.spIndex] s t ∧ SameStatus s t ∧
    t.out = s.out ∧ t.pc = nextSeq s.pc 1

/-- R161: PUSH and CALL with SP = 0 send the warning and halt, store nothing and leave SP; the rest
of the cycle completes (R87: decision D9, log entry 10). -/
def Obligations.StackOverflowHaltsWithoutAWrite : Prop :=
  ∀ (s : State) (r : Reg), s.sp = 0 →
    (∃ t, exec (.push (regCell r)) s = .next t ∧ t.out = s.out ++ [.overflowWarning] ∧
      t.run = .halted ∧ t.cause = .stackOverflow ∧ SameRegistersExcept [] s t ∧
      SameMemoryExcept [] s t ∧ t.fl = s.fl ∧ t.pc = nextSeq s.pc 1) ∧
    (∃ t, exec (.call (regCell r)) s = .next t ∧ t.out = s.out ++ [.overflowWarning] ∧
      t.run = .halted ∧ t.cause = .stackOverflow ∧ SameRegistersExcept [] s t ∧
      SameMemoryExcept [] s t ∧ t.fl = s.fl ∧ t.pc = s.reg r)

/-- POP of every register: the cell at SP goes to the register, then SP as it is now (for R7 the cell
just loaded: decision D13, log entry 12) is incremented under the guard (R102, R105; the comparison
before wrapping is decision D11, log entry 13). -/
def Obligations.PopLoadsThenIncrements : Prop :=
  ∀ (s : State) (d : Reg), ∃ t, exec (.pop (regCell d)) s = .next t ∧
    (d ≠ Config.spIndex → t.reg d = s.memRead s.sp) ∧
    (∀ p, p = (if d = Config.spIndex then s.memRead s.sp else s.sp) →
      (p.toNat + 1 ≤ 0xF4 → t.sp.toNat = p.toNat + 1 ∧ t.out = s.out) ∧
      (0xF4 < p.toNat + 1 → t.sp = 0xF4 ∧ t.out = s.out ++ [.underflowWarning])) ∧
    SameRegistersExcept [d, Config.spIndex] s t ∧ SameMemoryExcept [] s t ∧ SameStatus s t ∧
    t.pc = nextSeq s.pc 1

/-- R162: an underflowing POP sends the warning, sets SP to 0xF4 and goes on, the register loaded; no
other instruction ever sends that warning. The comparison before wrapping is decision D11 and 0xF4
is D21 (log entry 13), POP R7 is D13 (log entry 12), that RET never warns is D8 (log entry 9). -/
def Obligations.StackUnderflowIsCorrected : Prop :=
  (∀ (s : State) (d : Reg) (p : Byte),
    p = (if d = Config.spIndex then s.memRead s.sp else s.sp) → 0xF4 < p.toNat + 1 →
    ∃ t, exec (.pop (regCell d)) s = .next t ∧ t.out = s.out ++ [.underflowWarning] ∧
      t.sp = 0xF4 ∧ (d ≠ Config.spIndex → t.reg d = s.memRead s.sp) ∧ t.run = s.run ∧
      t.cause = s.cause ∧ t.pc = nextSeq s.pc 1) ∧
  (∀ (i : Instr) (s t : State), exec i s = .next t → t.out = s.out ++ [.underflowWarning] →
    ∃ d, i = .pop d)

/-- R106, the spec's derivation: N pushes of registers other than R7, then N pops, give the pushed
values in reverse order and leave SP where it was, if N <= SP <= 0xF4 (decision D21, log entry 13). -/
def Obligations.LastInFirstOut : Prop :=
  ∀ (s : State) (rs ds : List Reg), ds.length = rs.length → Config.spIndex ∉ rs →
    Config.spIndex ∉ ds → rs.length ≤ s.sp.toNat → s.sp.toNat ≤ 0xF4 →
    ∃ t u, execAll (rs.map fun r => .push (regCell r)) s = .next t ∧
      popValues ds t = some ((rs.map s.reg).reverse, u) ∧ u.sp = s.sp ∧ u.out = s.out ∧
      SameStatus s u

/-- The invariant of R25 as far as the hardware keeps it: a cycle whose instruction does not name R7
as the destination of LDI, ADD or MUL keeps SP at or below 0xF4. R25's sentence that POP too can set
SP to any value gives way to R102 and R105: what POP R7 loads is then incremented under the guard
(decision D13, log entry 12; D11 and D21, log entry 13). -/
def Obligations.StackPointerStaysInRange : Prop :=
  ∀ s t : State, step s = .next t → s.sp.toNat ≤ 0xF4 →
    (∀ v, s.fetchDecode ≠ .ok (.ldi 7 v) ∧ s.fetchDecode ≠ .ok (.add 7 v) ∧
      s.fetchDecode ≠ .ok (.mul 7 v)) →
    t.sp.toNat ≤ 0xF4

/-! ## CALL and RET -/

/-- CALL with SP not 0: NextSeq(pc, 1) is pushed (decision D7, log entry 11) and pc takes the register
as it is after the push (for R7 the decision D14, log entry 12) (R120). -/
def Obligations.CallPushesTheReturnAddress : Prop :=
  ∀ (s : State) (r : Reg), s.sp ≠ 0 → ∃ t, exec (.call (regCell r)) s = .next t ∧
    t.memRead (s.sp - 1) = nextSeq s.pc 1 ∧ t.sp.toNat + 1 = s.sp.toNat ∧
    t.pc = (if r = Config.spIndex then s.sp - 1 else s.reg r) ∧
    SameMemoryExcept [s.sp - 1] s t ∧ SameRegistersExcept [Config.spIndex] s t ∧ SameStatus s t ∧
    t.out = s.out

/-- RET: pc takes the cell at SP; SP and everything else stay, and nothing is sent whatever SP is
(R121: decision D8, log entry 9). -/
def Obligations.RetReadsTheCellAtSp : Prop :=
  ∀ s : State, ∃ t, exec .ret s = .next t ∧ t.pc = s.memRead s.sp ∧ SameRegistersExcept [] s t ∧
    SameMemoryExcept [] s t ∧ SameStatus s t ∧ t.out = s.out

/-- The alternative return that R121 writes out for RET_POPS = true, which is not this hardware
(decision D8, log entry 9); its guard is that of R102 (decisions D11 and D21, log entry 13). -/
def Obligations.PoppingReturnIncrementsSp : Prop :=
  ∀ s : State, (s.returnTo true).pc = s.memRead s.sp ∧
    (s.sp.toNat + 1 ≤ 0xF4 → (s.returnTo true).sp.toNat = s.sp.toNat + 1 ∧
      (s.returnTo true).out = s.out) ∧
    (0xF4 < s.sp.toNat + 1 → (s.returnTo true).sp = 0xF4 ∧
      (s.returnTo true).out = s.out ++ [.underflowWarning]) ∧
    SameRegistersExcept [Config.spIndex] s (s.returnTo true) ∧
    SameMemoryExcept [] s (s.returnTo true) ∧ SameStatus s (s.returnTo true)

/-- R122, the spec's derivation: a RET right after a CALL goes to the instruction after the CALL
(decision D7, log entry 11), and the pair leaves SP one lower (decision D8, log entry 9). -/
def Obligations.CallThenReturnLowersSpByOne : Prop :=
  ∀ (s : State) (r : Reg), s.sp ≠ 0 → ∃ t u, exec (.call (regCell r)) s = .next t ∧
    exec .ret t = .next u ∧ u.pc = nextSeq s.pc 1 ∧ u.sp.toNat + 1 = s.sp.toNat ∧
    SameRegistersExcept [Config.spIndex] s u ∧ SameMemoryExcept [s.sp - 1] s u ∧
    SameStatus s u ∧ u.out = s.out

/-! ## ALU -/

/-- R111 (its InvalidRegister clause is decision D4, log entry 8; of a register named twice both
sources are read before the write: decision D30, log entry 19). -/
def Obligations.AddWrapsModulo256 : Prop :=
  (∀ (s : State) (a b : Reg), ∃ t, exec (.add (regCell a) (regCell b)) s = .next t ∧
    (t.reg a).toNat = ((s.reg a).toNat + (s.reg b).toNat) % 256 ∧
    SameRegistersExcept [a] s t ∧ SameMemoryExcept [] s t ∧ SameStatus s t ∧ t.out = s.out ∧
    t.pc = nextSeq s.pc 2) ∧
  (∀ (s : State) (a b : Byte), 7 < a.toNat ∨ 7 < b.toNat →
    ∃ t, exec (.add a b) s = .next t ∧ FatalFrom .invalidRegister s t)

/-- R112 (its InvalidRegister clause is decision D4, log entry 8; of a register named twice both
sources are read before the write: decision D30, log entry 19). -/
def Obligations.MulWrapsModulo256 : Prop :=
  (∀ (s : State) (a b : Reg), ∃ t, exec (.mul (regCell a) (regCell b)) s = .next t ∧
    (t.reg a).toNat = ((s.reg a).toNat * (s.reg b).toNat) % 256 ∧
    SameRegistersExcept [a] s t ∧ SameMemoryExcept [] s t ∧ SameStatus s t ∧ t.out = s.out ∧
    t.pc = nextSeq s.pc 2) ∧
  (∀ (s : State) (a b : Byte), 7 < a.toNat ∨ 7 < b.toNat →
    ∃ t, exec (.mul a b) s = .next t ∧ FatalFrom .invalidRegister s t)

/-! ## Whole-machine rules -/

/-- R24: which registers each instruction writes (`writtenRegs`), and that it reads none but its named
operands and SP (`touchedRegs`): setting any other register before it is the same as after it. That
RET writes no register, SP included, is decision D8 (log entry 9). -/
def Obligations.OnlyNamedRegistersAndSpAreUsed : Prop :=
  (∀ (i : Instr) (s t : State), exec i s = .next t → SameRegistersExcept (writtenRegs i) s t) ∧
  (∀ (i : Instr) (s t : State) (r : Reg) (v : Byte), r ∉ touchedRegs i → exec i s = .next t →
    exec i (s.setReg r v) = .next (t.setReg r v))

/-- The only memory cell an instruction can change is the one PUSH or CALL writes, at SP - 1, and only
when SP is not 0 (R53). -/
def Obligations.OnlyThePushedCellChanges : Prop :=
  ∀ (i : Instr) (s t : State) (a : Byte), exec i s = .next t → t.memRead a ≠ s.memRead a →
    (∃ c, i = .push c ∨ i = .call c) ∧ s.sp ≠ 0 ∧ a = s.sp - 1

/-- The only memory cell an instruction reads is the one at SP, and only POP and RET read it: any other
cell may hold anything without a change to the rest of the state (R53). -/
def Obligations.OnlyTheStackCellIsRead : Prop :=
  ∀ (i : Instr) (s t : State) (a v : Byte), exec i s = .next t →
    ((∃ d, i = .pop d) ∨ i = .ret → a ≠ s.sp) →
    ∃ t', exec i (s.memWrite a v) = .next t' ∧ t'.x = t.x ∧ t'.pc = t.pc ∧ SameStatus t t' ∧
      t'.out = t.out

/-- FL is written by no cycle and read by none (R29; its width is decision D17, log entry 14). -/
def Obligations.FlagsAreNeitherReadNorWritten : Prop :=
  ∀ (s t : State) (v : Byte), step s = .next t →
    t.fl = s.fl ∧ step { s with fl := v } = .next { t with fl := v }

/-- CAUSE and OUT change no behaviour: whatever they held, a cycle does the same to the rest of the
state and sends the same events (R31, R151: decisions D22 and D19, log entry 15). -/
def Obligations.CauseAndOutputAreNotRead : Prop :=
  ∀ (s t : State) (c : Cause) (o : List Event), step s = .next t →
    ∃ t' es, step { s with cause := c, out := o } = .next t' ∧ t.out = s.out ++ es ∧
      t'.out = o ++ es ∧ t'.mem = t.mem ∧ t'.x = t.x ∧ t'.pc = t.pc ∧ t'.fl = t.fl ∧ t'.run = t.run

/-- The events of one cycle are those the table of R151 gives its instruction (decision D19, log entry
15), appended to OUT. When POP warns is R102's: compared before wrapping (decision D11, log entry
13), for R7 on the loaded cell (decision D13, log entry 12); that RET never warns is decision D8 (log
entry 9). A fatal cycle sends none (`UnsupportedOperationOnlyHalts`, `InvalidRegisterOnlyHalts`). -/
def Obligations.CycleSendsItsEvents : Prop :=
  ∀ (s : State) (i : Instr), s.run = .running → s.fetchDecode = .ok i → i.wellFormed = true →
    ∃ t, step s = .next t ∧ t.out = s.out ++ eventsOf i s

/-- Which cycles halt the machine, and that CAUSE records which of the four events it was (R30, R31,
R160; CAUSE is decision D22, log entry 15; a cycle that loads an illegal cell is decision D4, log
entry 8; the nine bytes are D3, log entry 17, and the low nibbles of seven D2, log entry 4). -/
def Obligations.CauseRecordsWhyTheMachineHalted : Prop :=
  ∀ s : State, s.run = .running → s.cause = .none → ∃ t, step s = .next t ∧
    (t.cause = .haltInstruction ↔ s.memRead s.pc = 0x01) ∧
    (t.cause = .stackOverflow ↔ s.sp = 0 ∧ ∃ r, s.fetchDecode = .ok (.push (regCell r)) ∨
      s.fetchDecode = .ok (.call (regCell r))) ∧
    (t.cause = .unsupportedOperation ↔
      s.memRead s.pc ∉ ([0x82, 0x47, 0x45, 0x46, 0x01, 0x50, 0x11, 0xA0, 0xA2] : List Byte)) ∧
    (t.cause = .invalidRegister ↔ ∃ i, s.fetchDecode = .ok i ∧ i.wellFormed = false) ∧
    (t.run = .halted ↔ t.cause ≠ .none)

/-- Self-modifying code: a PUSH runs with the cells fetched before its own write, even where it writes
one of them, and what it stores is what the next fetch reads there (R50, R51, both the spec's
derivations; the order is decision D30, log entry 19). That PUSH R7 stores the old SP is decision D12
(log entry 12); where the next fetch reads its operands is decision D6 (log entry 11). -/
def Obligations.PushedCellIsSeenByTheNextFetch : Prop :=
  ∀ (s : State) (r : Reg), s.run = .running → s.fetchDecode = .ok (.push (regCell r)) → s.sp ≠ 0 →
    ∃ t, step s = .next t ∧ t.memRead (s.sp - 1) = s.reg r ∧ t.pc = nextSeq s.pc 1 ∧
      (t.pc = s.sp - 1 → t.fetchIr = s.reg r) ∧ (t.pc + 1 = s.sp - 1 → t.fetchOp1 = s.reg r) ∧
      (t.pc + 2 = s.sp - 1 → t.fetchOp2 = s.reg r)

/-- Self-modifying code by CALL: it too runs with the cells fetched before its own write, even where
it writes one of them, and the return address it stores is what the next fetch, at its target, reads
there (R50, R51, R120; the order is decision D30, log entry 19). The stored address is decision D7
and the operand addresses D6 (log entry 11); that CALL R7 goes to the cell just written is decision
D14 (log entry 12). -/
def Obligations.CallPushedCellIsSeenByTheNextFetch : Prop :=
  ∀ (s : State) (r : Reg), s.run = .running → s.fetchDecode = .ok (.call (regCell r)) → s.sp ≠ 0 →
    ∃ t, step s = .next t ∧ t.memRead (s.sp - 1) = nextSeq s.pc 1 ∧
      t.pc = (if r = Config.spIndex then s.sp - 1 else s.reg r) ∧
      (t.pc = s.sp - 1 → t.fetchIr = nextSeq s.pc 1) ∧
      (t.pc + 1 = s.sp - 1 → t.fetchOp1 = nextSeq s.pc 1) ∧
      (t.pc + 2 = s.sp - 1 → t.fetchOp2 = nextSeq s.pc 1)

/-- Every cycle keeps a legal state legal: memory in canonical form (the model's own, log entry 1), FL
at 0 (R29), CAUSE None exactly while RUNNING (R31). -/
def Obligations.EveryStepKeepsTheStateLegal : Prop :=
  ∀ s t : State, s.Legal → step s = .next t → t.Legal

/-! ## Reset, load and run -/

/-- R33 and R180 for every contents of memory at reset; CAUSE and OUT are the spec's own bookkeeping
(decisions D22 and D19, log entry 15), STACK_TOP is decision D21 (log entry 13). -/
def Obligations.ResetLeavesTheListedValues : Prop :=
  ∀ memInit : Byte → Byte,
    (∀ r, r ≠ 7 → (State.resetWith memInit).reg r = 0) ∧ (State.resetWith memInit).reg 7 = 0xF4 ∧
    (State.resetWith memInit).pc = 0 ∧ (State.resetWith memInit).fl = 0 ∧
    (State.resetWith memInit).run = .running ∧ (State.resetWith memInit).cause = .none ∧
    (State.resetWith memInit).out = [] ∧ ∀ a, (State.resetWith memInit).memRead a = memInit a

/-- Every state after reset is legal, and the model's `State.reset` is the case of a memory that is 0
everywhere (the model's own choice, log entry 1). -/
def Obligations.ResetStatesAreLegal : Prop :=
  (∀ memInit : Byte → Byte, (State.resetWith memInit).Legal) ∧ State.reset.Legal ∧
    State.reset = State.resetWith (fun _ => 0)

/-- The program-load interface of R149 (decision D16, log entry 6): word k goes to cell k, nothing else
changes, more than 256 words are refused, and so is loading after the cycles have started. -/
def Obligations.LoaderPlacesTheProgram : Prop :=
  (∀ (s : State) (ws : List Byte), ws.length ≤ 256 → ∃ t, s.loadProgram ws = .next t ∧
    (∀ a, t.memRead a = ws.getD a.toNat (s.memRead a)) ∧ SameRegistersExcept [] s t ∧
    SameStatus s t ∧ t.pc = s.pc ∧ t.out = s.out) ∧
  (∀ (s : State) (ws : List Byte), 256 < ws.length →
    s.loadProgram ws = .refused (.programTooLong ws.length)) ∧
  (∀ (x y : Session) (ws : List Byte), hostCycle x = .next y →
    hostLoad ws y = .refused .loadAfterStart)

/-- The order of a run (R181; the load is decision D16, log entry 6): after reset and load the first
cycle fetches the first words of the program from address 0 on, whatever memory held at reset. -/
def Obligations.RunStartsAtTheFirstWord : Prop :=
  ∀ (memInit : Byte → Byte) (ws : List Byte), ws.length ≤ 256 →
    ∃ x, hostLoad ws (hostReset memInit) = .next x ∧ x.started = false ∧
      x.machine.run = .running ∧ x.machine.pc = 0 ∧
      (∀ w, ws[0]? = some w → x.machine.fetchIr = w) ∧
      (∀ w, ws[1]? = some w → x.machine.fetchOp1 = w) ∧
      (∀ w, ws[2]? = some w → x.machine.fetchOp2 = w)

/-- The host's run under a step budget is that many steps of the machine (R90, R91, R152: decision D25,
log entry 6; beyond HALTED in the form of log entry 3). -/
def Obligations.HostRunIsThatManySteps : Prop :=
  ∀ (n : Nat) (x : Session), ∃ y, hostRun n x = .next y ∧
    Host.Core.run Sys2Proof.core n x.machine = .next y.machine

/-- What `withFetchWord` places is what the next step runs (the model's own stand-in for the loader,
log entry 5). -/
def Obligations.PlacedWordRunsNext : Prop :=
  ∀ (s : State) (nbits w : Nat) (i : Instr), decodeTableWord nbits w = some i →
    step (s.withFetchWord nbits w) = exec i (s.withFetchWord nbits w)
end

