-- ==== Sys2Proof/Laws/Memory.lean ====
section
/-! SUPPORT. The laws of the cell list: what a read gives after a write, and that every memory
operation keeps the canonical form. -/

namespace Sys2Proof.Machine

theorem Memory.read_nil (a : Byte) : Memory.read [] a = Config.unwrittenByte := rfl

/-- Reading a list cell by cell. -/
theorem Memory.read_cons (c : Host.Cell) (m : Memory) (a : Byte) :
    Memory.read (c :: m) a = if c.1 = a.toNat then c.2 else Memory.read m a := by
  by_cases h : c.1 = a.toNat <;> simp [Memory.read, h]

/-- Dropping the cells of another address does not change a read. -/
theorem Memory.read_filter_ne (m : Memory) {a b : Byte} (h : b ≠ a) :
    Memory.read (m.filter (fun c => c.1 != a.toNat)) b = Memory.read m b := by
  induction m with
  | nil => rfl
  | cons c m ih =>
    have hab : b.toNat ≠ a.toNat := fun e => h (BitVec.eq_of_toNat_eq e)
    by_cases hc : c.1 = a.toNat
    · have : c.1 ≠ b.toNat := fun e => hab (e ▸ hc)
      simp [hc, ih, Memory.read_cons, Ne.symm hab]
    · simp [hc, ih, Memory.read_cons]

/-- A dropped address reads as an unlisted one. -/
theorem Memory.read_filter_same (m : Memory) (a : Byte) :
    Memory.read (m.filter (fun c => c.1 != a.toNat)) a = Config.unwrittenByte := by
  induction m with
  | nil => rfl
  | cons c m ih => by_cases hc : c.1 = a.toNat <;> simp [hc, ih, Memory.read_cons]

/-- A read after one cell is put in, where the address was not listed before. -/
theorem Memory.read_insertCell (m : Memory) (a b v : Byte) (h : ∀ c ∈ m, c.1 ≠ a.toNat) :
    Memory.read (Memory.insertCell a.toNat v m) b = if b = a then v else Memory.read m b := by
  have key : (a.toNat = b.toNat) = (b = a) := by
    apply propext; exact ⟨fun e => BitVec.eq_of_toNat_eq e.symm, fun e => by rw [e]⟩
  induction m with
  | nil => simp [Memory.insertCell, Memory.read_cons, Memory.read_nil, key]
  | cons c m ih =>
    have hm : ∀ d ∈ m, d.1 ≠ a.toNat := fun d hd => h d (List.mem_cons_of_mem _ hd)
    have hc : c.1 ≠ a.toNat := h c List.mem_cons_self
    by_cases hlt : a.toNat < c.1
    · simp [Memory.insertCell, hlt, Memory.read_cons, key]
    · by_cases hb : b = a
      · subst hb; simp [Memory.insertCell, hlt, Memory.read_cons, ih hm, hc]
      · simp [Memory.insertCell, hlt, Memory.read_cons, ih hm, hb]

/-- `MemWrite` changes its cell and no other (R41). -/
theorem Memory.read_write (m : Memory) (a b v : Byte) :
    (m.write a v).read b = if b = a then v else m.read b := by
  unfold Memory.write
  by_cases hv : v = Config.unwrittenByte
  · by_cases hb : b = a
    · subst hb; simp [hv, Memory.read_filter_same]
    · simp [hv, hb, Memory.read_filter_ne m hb]
  · have hne : ∀ c ∈ m.filter (fun c => c.1 != a.toNat), c.1 ≠ a.toNat := by simp
    by_cases hb : b = a
    · simp [hv, hb, Memory.read_insertCell _ _ _ _ hne]
    · simp [hv, hb, Memory.read_insertCell _ _ _ _ hne, Memory.read_filter_ne m hb]

/-- What the canonical form says of a list. -/
theorem Memory.wf_iff (m : Memory) :
    m.wf = true ↔ m.Pairwise (fun c d => c.1 < d.1) ∧
      ∀ c ∈ m, c.1 < Config.memSize ∧ c.2 ≠ Config.unwrittenByte := by
  simp [Memory.wf]

/-- The cells after one is put in: the new one and the old ones. -/
theorem Memory.mem_insertCell (m : Memory) (k : Nat) (v : Byte) (d : Host.Cell) :
    d ∈ Memory.insertCell k v m ↔ d = (k, v) ∨ d ∈ m := by
  induction m with
  | nil => simp [Memory.insertCell]
  | cons c m ih =>
    by_cases hlt : k < c.1
    · simp [Memory.insertCell, hlt]
    · simp only [Memory.insertCell, hlt, if_false, List.mem_cons, ih]; tauto

/-- Putting a cell of a new address in keeps the addresses strictly rising. -/
theorem Memory.insertCell_rising (m : Memory) (k : Nat) (v : Byte)
    (hr : m.Pairwise (fun c d => c.1 < d.1)) (h : ∀ c ∈ m, c.1 ≠ k) :
    (Memory.insertCell k v m).Pairwise (fun c d => c.1 < d.1) := by
  induction m with
  | nil => simp [Memory.insertCell]
  | cons c m ih =>
    rw [List.pairwise_cons] at hr
    have hm : ∀ d ∈ m, d.1 ≠ k := fun d hd => h d (List.mem_cons_of_mem _ hd)
    have hc : c.1 ≠ k := h c List.mem_cons_self
    by_cases hlt : k < c.1
    · simp only [Memory.insertCell, hlt, if_true, List.pairwise_cons, List.mem_cons]
      refine ⟨?_, hr⟩
      rintro d (rfl | hd)
      · exact hlt
      · exact lt_trans hlt (hr.1 d hd)
    · simp only [Memory.insertCell, hlt, if_false, List.pairwise_cons]
      refine ⟨fun d hd => ?_, ih hr.2 hm⟩
      rcases (Memory.mem_insertCell m k v d).1 hd with rfl | hd
      · exact lt_of_le_of_ne (not_lt.1 hlt) hc
      · exact hr.1 d hd

theorem Memory.wf_nil : Memory.wf [] = true := rfl

/-- A write keeps the canonical form. -/
theorem Memory.write_wf (m : Memory) (a v : Byte) (h : m.wf = true) : (m.write a v).wf = true := by
  rw [Memory.wf_iff] at h ⊢
  obtain ⟨hr, hc⟩ := h
  have hr' : (m.filter (fun c => c.1 != a.toNat)).Pairwise (fun c d => c.1 < d.1) :=
    hr.filter _
  have hc' : ∀ c ∈ m.filter (fun c => c.1 != a.toNat),
      c.1 < Config.memSize ∧ c.2 ≠ Config.unwrittenByte :=
    fun c hm => hc c (List.mem_of_mem_filter hm)
  have hne : ∀ c ∈ m.filter (fun c => c.1 != a.toNat), c.1 ≠ a.toNat := by simp
  unfold Memory.write
  by_cases hv : v = Config.unwrittenByte
  · simp only [hv, if_true]; exact ⟨hr', hc'⟩
  · simp only [hv, if_false]
    refine ⟨Memory.insertCell_rising _ _ _ hr' hne, fun d hd => ?_⟩
    rcases (Memory.mem_insertCell _ _ _ d).1 hd with rfl | hd
    · exact ⟨a.isLt, hv⟩
    · exact hc' d hd

/-- Any reset contents are in canonical form. -/
theorem Memory.ofFirst_wf (f : Byte → Byte) (n : Nat) : (Memory.ofFirst f n).wf = true := by
  induction n with
  | zero => rfl
  | succ n ih => exact Memory.write_wf _ _ _ ih

theorem Memory.ofContents_wf (f : Byte → Byte) : (Memory.ofContents f).wf = true :=
  Memory.ofFirst_wf f _

end Sys2Proof.Machine
end

