-- ==== Sys2Proof/Laws/State.lean ====
section
/-! SUPPORT. One lemma per field of State and update, so that no proof unfolds a record update, and
what each update does to the two reads (`reg`, `memRead`). -/

namespace Sys2Proof.Machine

section
variable (s : State) (r q : Reg) (a v : Byte) (e : Event) (c : Cause) (f : Fault) (n : Nat)

/-! ## memWrite -/

@[simp] theorem memWrite_mem : (s.memWrite a v).mem = s.mem.write a v := rfl
@[simp] theorem memWrite_x : (s.memWrite a v).x = s.x := rfl
@[simp] theorem memWrite_pc : (s.memWrite a v).pc = s.pc := rfl
@[simp] theorem memWrite_fl : (s.memWrite a v).fl = s.fl := rfl
@[simp] theorem memWrite_run : (s.memWrite a v).run = s.run := rfl
@[simp] theorem memWrite_cause : (s.memWrite a v).cause = s.cause := rfl
@[simp] theorem memWrite_out : (s.memWrite a v).out = s.out := rfl
@[simp] theorem memWrite_reg : (s.memWrite a v).reg r = s.reg r := rfl
@[simp] theorem memWrite_sp : (s.memWrite a v).sp = s.sp := rfl

/-! ## setReg and setSp -/

@[simp] theorem setReg_mem : (s.setReg r v).mem = s.mem := rfl
@[simp] theorem setReg_pc : (s.setReg r v).pc = s.pc := rfl
@[simp] theorem setReg_fl : (s.setReg r v).fl = s.fl := rfl
@[simp] theorem setReg_run : (s.setReg r v).run = s.run := rfl
@[simp] theorem setReg_cause : (s.setReg r v).cause = s.cause := rfl
@[simp] theorem setReg_out : (s.setReg r v).out = s.out := rfl
@[simp] theorem setReg_memRead : (s.setReg r v).memRead a = s.memRead a := rfl
@[simp] theorem setSp_mem : (s.setSp v).mem = s.mem := rfl
@[simp] theorem setSp_pc : (s.setSp v).pc = s.pc := rfl
@[simp] theorem setSp_fl : (s.setSp v).fl = s.fl := rfl
@[simp] theorem setSp_run : (s.setSp v).run = s.run := rfl
@[simp] theorem setSp_cause : (s.setSp v).cause = s.cause := rfl
@[simp] theorem setSp_out : (s.setSp v).out = s.out := rfl
@[simp] theorem setSp_memRead : (s.setSp v).memRead a = s.memRead a := rfl

/-- A register read after a register write. -/
theorem setReg_reg : (s.setReg r v).reg q = if q = r then v else s.reg q := by
  by_cases h : q = r
  · subst h; simp [State.setReg, State.reg]
  · have : r.val ≠ q.val := fun hv => h (Fin.ext hv.symm)
    simp [State.setReg, State.reg, h, this]

@[simp] theorem setReg_reg_same : (s.setReg r v).reg r = v := by simp [setReg_reg]

@[simp] theorem setSp_sp : (s.setSp v).sp = v := by simp [State.setSp, State.sp]

/-- SP after a register write: it is register 7. -/
theorem setReg_sp : (s.setReg r v).sp = if r = Config.spIndex then v else s.sp := by
  simp [State.sp, setReg_reg, eq_comm]

/-- A register read after SP is written. -/
theorem setSp_reg : (s.setSp v).reg q = if q = Config.spIndex then v else s.reg q := setReg_reg ..

/-! ## setPc and advance -/

@[simp] theorem setPc_mem : (s.setPc v).mem = s.mem := rfl
@[simp] theorem setPc_x : (s.setPc v).x = s.x := rfl
@[simp] theorem setPc_pc : (s.setPc v).pc = v := rfl
@[simp] theorem setPc_fl : (s.setPc v).fl = s.fl := rfl
@[simp] theorem setPc_run : (s.setPc v).run = s.run := rfl
@[simp] theorem setPc_cause : (s.setPc v).cause = s.cause := rfl
@[simp] theorem setPc_out : (s.setPc v).out = s.out := rfl
@[simp] theorem setPc_reg : (s.setPc v).reg r = s.reg r := rfl
@[simp] theorem setPc_sp : (s.setPc v).sp = s.sp := rfl
@[simp] theorem setPc_memRead : (s.setPc v).memRead a = s.memRead a := rfl
@[simp] theorem advance_mem : (s.advance n).mem = s.mem := rfl
@[simp] theorem advance_x : (s.advance n).x = s.x := rfl
@[simp] theorem advance_pc : (s.advance n).pc = nextSeq s.pc n := rfl
@[simp] theorem advance_fl : (s.advance n).fl = s.fl := rfl
@[simp] theorem advance_run : (s.advance n).run = s.run := rfl
@[simp] theorem advance_cause : (s.advance n).cause = s.cause := rfl
@[simp] theorem advance_out : (s.advance n).out = s.out := rfl
@[simp] theorem advance_reg : (s.advance n).reg r = s.reg r := rfl
@[simp] theorem advance_sp : (s.advance n).sp = s.sp := rfl
@[simp] theorem advance_memRead : (s.advance n).memRead a = s.memRead a := rfl

/-! ## emit -/

@[simp] theorem emit_mem : (s.emit e).mem = s.mem := rfl
@[simp] theorem emit_x : (s.emit e).x = s.x := rfl
@[simp] theorem emit_pc : (s.emit e).pc = s.pc := rfl
@[simp] theorem emit_fl : (s.emit e).fl = s.fl := rfl
@[simp] theorem emit_run : (s.emit e).run = s.run := rfl
@[simp] theorem emit_cause : (s.emit e).cause = s.cause := rfl
@[simp] theorem emit_out : (s.emit e).out = s.out ++ [e] := rfl
@[simp] theorem emit_reg : (s.emit e).reg r = s.reg r := rfl
@[simp] theorem emit_sp : (s.emit e).sp = s.sp := rfl
@[simp] theorem emit_memRead : (s.emit e).memRead a = s.memRead a := rfl

/-! ## halt and raise -/

@[simp] theorem halt_mem : (s.halt c).mem = s.mem := rfl
@[simp] theorem halt_x : (s.halt c).x = s.x := rfl
@[simp] theorem halt_pc : (s.halt c).pc = s.pc := rfl
@[simp] theorem halt_fl : (s.halt c).fl = s.fl := rfl
@[simp] theorem halt_run : (s.halt c).run = .halted := rfl
@[simp] theorem halt_cause : (s.halt c).cause = c := rfl
@[simp] theorem halt_out : (s.halt c).out = s.out := rfl
@[simp] theorem halt_reg : (s.halt c).reg r = s.reg r := rfl
@[simp] theorem halt_sp : (s.halt c).sp = s.sp := rfl
@[simp] theorem halt_memRead : (s.halt c).memRead a = s.memRead a := rfl
@[simp] theorem raise_mem : (s.raise f).mem = s.mem := rfl
@[simp] theorem raise_x : (s.raise f).x = s.x := rfl
@[simp] theorem raise_pc : (s.raise f).pc = s.pc := rfl
@[simp] theorem raise_fl : (s.raise f).fl = s.fl := rfl
@[simp] theorem raise_run : (s.raise f).run = .halted := rfl
@[simp] theorem raise_cause : (s.raise f).cause = f.cause := rfl
@[simp] theorem raise_out : (s.raise f).out = s.out := rfl
@[simp] theorem raise_reg : (s.raise f).reg r = s.reg r := rfl
@[simp] theorem raise_sp : (s.raise f).sp = s.sp := rfl
@[simp] theorem raise_memRead : (s.raise f).memRead a = s.memRead a := rfl

end

end Sys2Proof.Machine
end

