-- ==== Sys2Proof/Laws/Operations.lean ====
section
/-! SUPPORT. One lemma per shared operation that says all it can do, and per instruction the result
on legal and on illegal operand cells: proofs cite these and do not unfold the operations. -/

namespace Sys2Proof.Machine

/-! ## Memory seen through the state -/

theorem memWrite_memRead (s : State) (a v b : Byte) :
    (s.memWrite a v).memRead b = if b = a then v else s.memRead b := Memory.read_write ..

/-! ## Operand checks -/

theorem regCell_toNat (r : Reg) : (regCell r).toNat = r.val := by
  simp [regCell]; omega

@[simp] theorem checkReg_regCell (r : Reg) : checkReg (regCell r) = .ok r := by
  have h : (regCell r).toNat < 8 := by rw [regCell_toNat]; exact r.isLt
  simp only [checkReg, h, dif_pos]
  simp only [regCell_toNat]

theorem checkReg_illegal {b : Byte} (h : 7 < b.toNat) :
    checkReg b = .error (.invalidRegister b) := by
  simp [checkReg, show ¬ b.toNat < 8 by omega]

/-- A cell is legal exactly when it is the cell of some register. -/
theorem registerCellLegal_iff (b : Byte) : registerCellLegal b = true ↔ ∃ r, b = regCell r := by
  constructor
  · intro h
    have h8 : b.toNat < 8 := by simpa [registerCellLegal] using h
    exact ⟨⟨b.toNat, h8⟩, BitVec.eq_of_toNat_eq (by rw [regCell_toNat])⟩
  · rintro ⟨r, rfl⟩
    simp [registerCellLegal, regCell_toNat]

@[simp] theorem withReg_regCell (r : Reg) (s : State) (k : Reg → State) :
    withReg (regCell r) s k = .next (k r) := by simp [withReg]

theorem withReg_illegal {b : Byte} (h : 7 < b.toNat) (s : State) (k : Reg → State) :
    withReg b s k = .next (s.raise (.invalidRegister b)) := by simp [withReg, checkReg_illegal h]

@[simp] theorem withRegs_regCell (a b : Reg) (s : State) (k : Reg → Reg → State) :
    withRegs (regCell a) (regCell b) s k = .next (k a b) := by simp [withRegs]

theorem withRegs_illegal_first {a : Byte} (h : 7 < a.toNat) (b : Byte) (s : State)
    (k : Reg → Reg → State) :
    withRegs a b s k = .next (s.raise (.invalidRegister a)) := by
  simp [withRegs, checkReg_illegal h]

theorem withRegs_illegal_second (a : Reg) {b : Byte} (h : 7 < b.toNat) (s : State)
    (k : Reg → Reg → State) :
    withRegs (regCell a) b s k = .next (s.raise (.invalidRegister b)) := by
  simp [withRegs, checkReg_illegal h]

/-! ## The sequencer -/

theorem nextSeq_toNat (a : Byte) (n : Nat) :
    (nextSeq a n).toNat = if a.toNat + n + 1 ≥ 256 then 0 else a.toNat + n + 1 := by
  unfold nextSeq Config.memSize
  split
  · rfl
  · simp only [BitVec.toNat_ofNat]; omega

/-! ## The stack controller -/

/-- The decrement of a push never wraps: it is not done at 0. -/
theorem decrement_toNat {v : Byte} (h : v ≠ 0) : (v - 1).toNat + 1 = v.toNat := by bv_omega

/-- The increment of a pop never wraps: it is done only up to the stack top. -/
theorem increment_toNat {v : Byte} (h : v.toNat + 1 ≤ 0xF4) : (v + 1).toNat = v.toNat + 1 := by
  bv_omega

theorem push_overflow (s : State) (v : Byte) (h : s.sp = 0) :
    s.push v = (s.emit .overflowWarning).halt .stackOverflow := if_pos h

theorem push_room (s : State) (v : Byte) (h : s.sp ≠ 0) :
    s.push v = (s.setSp (s.sp - 1)).memWrite (s.sp - 1) v := by
  have h' : ¬ s.sp = Config.bottomGuard := h
  simp only [State.push, h', if_false, setSp_sp]

/-- All a push can do. -/
theorem push_cases (s : State) (v : Byte) :
    (s.sp = 0 ∧ s.push v = (s.emit .overflowWarning).halt .stackOverflow) ∨
      (s.sp ≠ 0 ∧ s.push v = (s.setSp (s.sp - 1)).memWrite (s.sp - 1) v) := by
  by_cases h : s.sp = 0
  · exact .inl ⟨h, push_overflow s v h⟩
  · exact .inr ⟨h, push_room s v h⟩

theorem bumpSp_underflow (s : State) (h : s.sp.toNat + 1 > 0xF4) :
    s.bumpSp = (s.emit .underflowWarning).setSp 0xF4 := by
  simp only [State.bumpSp, Config.stackTop]; exact if_pos h

theorem bumpSp_room (s : State) (h : s.sp.toNat + 1 ≤ 0xF4) : s.bumpSp = s.setSp (s.sp + 1) := by
  have hn : ¬ s.sp.toNat + 1 > (0xF4 : Byte).toNat := by
    rw [show (0xF4 : Byte).toNat = 0xF4 from rfl]; omega
  simp only [State.bumpSp, Config.stackTop, hn, if_false]
  rw [show BitVec.ofNat 8 (s.sp.toNat + 1) = s.sp + 1 from
    BitVec.eq_of_toNat_eq (by simp [BitVec.toNat_add])]

/-- All the increment after a pop can do. -/
theorem bumpSp_cases (s : State) :
    (s.sp.toNat + 1 > 0xF4 ∧ s.bumpSp = (s.emit .underflowWarning).setSp 0xF4) ∨
      (s.sp.toNat + 1 ≤ 0xF4 ∧ s.bumpSp = s.setSp (s.sp + 1)) := by
  by_cases h : s.sp.toNat + 1 > 0xF4
  · exact .inl ⟨h, bumpSp_underflow s h⟩
  · exact .inr ⟨by omega, bumpSp_room s (by omega)⟩

/-! ## Each instruction on legal operand cells -/

section
variable (s : State) (r a b : Reg) (imm : Byte)

theorem exec_ldi :
    exec (.ldi (regCell r) imm) s = .next ((s.setReg r imm).advance 2) := by
  simp [exec, execLdi, immediate]

theorem exec_prn :
    exec (.prn (regCell r)) s = .next ((s.emit (.print (s.reg r))).advance 1) := by
  simp [exec, execPrn]

theorem exec_push :
    exec (.push (regCell r)) s = .next ((s.push (s.reg r)).advance 1) := by
  simp [exec, execPush]

theorem exec_pop :
    exec (.pop (regCell r)) s = .next ((s.setReg r (s.memRead s.sp)).bumpSp.advance 1) := by
  simp [exec, execPop, State.popTo]

theorem exec_hlt : exec .hlt s = .next ((s.halt .haltInstruction).advance 0) := rfl

theorem exec_call :
    exec (.call (regCell r)) s =
      .next ((s.push (nextSeq s.pc 1)).setPc ((s.push (nextSeq s.pc 1)).reg r)) := by
  simp [exec, execCall, State.jumpToReg]

theorem exec_ret : exec .ret s = .next (s.setPc (s.memRead s.sp)) := rfl

theorem exec_add :
    exec (.add (regCell a) (regCell b)) s =
      .next ((s.setReg a (aluAdd (s.reg a) (s.reg b))).advance 2) := by
  simp only [exec, execAdd, withRegs_regCell]; rfl

theorem exec_mul :
    exec (.mul (regCell a) (regCell b)) s =
      .next ((s.setReg a (aluMul (s.reg a) (s.reg b))).advance 2) := by
  simp only [exec, execMul, withRegs_regCell]; rfl

theorem aluAdd_toNat (u v : Byte) : (aluAdd u v).toNat = (u.toNat + v.toNat) % 256 := by
  simp [aluAdd]

theorem aluMul_toNat (u v : Byte) : (aluMul u v).toNat = (u.toNat * v.toNat) % 256 := by
  simp [aluMul]

end

/-- A well-formed instruction has the cells of registers in its register operands. -/
theorem wellFormed_cases (i : Instr) (h : i.wellFormed = true) :
    (∃ r v, i = .ldi (regCell r) v) ∨ (∃ r, i = .prn (regCell r)) ∨ (∃ r, i = .push (regCell r)) ∨
      (∃ r, i = .pop (regCell r)) ∨ i = .hlt ∨ (∃ r, i = .call (regCell r)) ∨ i = .ret ∨
      (∃ a b, i = .add (regCell a) (regCell b)) ∨ (∃ a b, i = .mul (regCell a) (regCell b)) := by
  cases i <;>
    simp_all [Instr.wellFormed, Instr.registerCells, registerCellLegal_iff]

/-- An ill-formed instruction raises InvalidRegister with its first illegal operand cell. -/
theorem exec_illFormed (i : Instr) (s : State) (h : i.wellFormed = false) :
    ∃ b, operandFault i = some (.invalidRegister b) ∧
      exec i s = .next (s.raise (.invalidRegister b)) := by
  have bad : ∀ b : Byte, registerCellLegal b = false → 7 < b.toNat := by
    intro b hb; simp [registerCellLegal] at hb; omega
  cases i with
  | hlt => simp [Instr.wellFormed, Instr.registerCells] at h
  | ret => simp [Instr.wellFormed, Instr.registerCells] at h
  | add a b | mul a b =>
    by_cases ha : registerCellLegal a = true
    · have hb : registerCellLegal b = false := by
        simpa [Instr.wellFormed, Instr.registerCells, ha] using h
      obtain ⟨ra, rfl⟩ := (registerCellLegal_iff a).1 ha
      refine ⟨b, by simp [operandFault, Instr.registerCells, ha, hb], ?_⟩
      simp [exec, execAdd, execMul, withRegs_illegal_second ra (bad b hb)]
    · have ha : registerCellLegal a = false := by simpa using ha
      refine ⟨a, by simp [operandFault, Instr.registerCells, ha], ?_⟩
      simp [exec, execAdd, execMul, withRegs_illegal_first (bad a ha)]
  | ldi d _ | prn d | push d | pop d | call d =>
    have hd : registerCellLegal d = false := by
      simpa [Instr.wellFormed, Instr.registerCells] using h
    refine ⟨d, by simp [operandFault, Instr.registerCells, hd], ?_⟩
    simp [exec, execLdi, execPrn, execPush, execPop, execCall, withReg_illegal (bad d hd)]

/-! ## A step -/

theorem step_halted {s : State} (hr : s.run = .halted) : step s = .next s := by simp [step, hr]

theorem step_decoded {s : State} {i : Instr} (hr : s.run = .running) (hd : s.fetchDecode = .ok i) :
    step s = exec i s := by simp [step, hr, hd]

theorem step_undecoded {s : State} {e : DecodeError} (hr : s.run = .running)
    (hd : s.fetchDecode = .error e) :
    step s = .next (s.raise (.unsupportedOperation s.fetchIr)) := by simp [step, hr, hd]

/-- All a step can do. -/
theorem step_cases (s : State) :
    (s.run = .halted ∧ step s = .next s) ∨
      (s.run = .running ∧ ∃ i, s.fetchDecode = .ok i ∧ step s = exec i s) ∨
      (s.run = .running ∧ (∃ e, s.fetchDecode = .error e) ∧
        step s = .next (s.raise (.unsupportedOperation s.fetchIr))) := by
  cases hr : s.run with
  | halted => exact .inl ⟨rfl, step_halted hr⟩
  | running =>
    cases hd : s.fetchDecode with
    | ok i => exact .inr (.inl ⟨rfl, i, rfl, step_decoded hr hd⟩)
    | error e => exact .inr (.inr ⟨rfl, ⟨e, rfl⟩, step_undecoded hr hd⟩)

/-- A run of the machine, one step at a time. -/
theorem core_run_step {k : Nat} {s t : State} (h : step s = .next t) :
    Host.Core.run Sys2Proof.core (k + 1) s = Host.Core.run Sys2Proof.core k t := by
  refine (Host.Core.run.eq_2 Sys2Proof.core s k).trans ?_
  rw [show Sys2Proof.core.step s = .next t from h]

end Sys2Proof.Machine
end

