-- ==== Sys2Proof/Laws/PerInstr.lean ====
section
/-! SUPPORT. Facts about every instruction as syntax, one lemma per constructor. -/

namespace Sys2Proof.Laws.EncodedLength

/-- The number of operand cells in an instruction's encoding is the NOPS field of its opcode byte, so
that a decoder can tell its length from the opcode byte alone (spec/30_encoding.md R60, R69). -/
def Statement (i : Instr) : Prop :=
  i.length = (opcodeFields (opcodeByte i.op)).nops.toNat + 1 ∧ (encode i).length = i.length

theorem ldi (d imm : Byte) : Statement (.ldi d imm) :=
  ⟨show 3 = (opcodeFields (opcodeByte .ldi)).nops.toNat + 1 by decide, rfl⟩
theorem prn (r : Byte) : Statement (.prn r) :=
  ⟨show 2 = (opcodeFields (opcodeByte .prn)).nops.toNat + 1 by decide, rfl⟩
theorem push (r : Byte) : Statement (.push r) :=
  ⟨show 2 = (opcodeFields (opcodeByte .push)).nops.toNat + 1 by decide, rfl⟩
theorem pop (d : Byte) : Statement (.pop d) :=
  ⟨show 2 = (opcodeFields (opcodeByte .pop)).nops.toNat + 1 by decide, rfl⟩
theorem hlt : Statement .hlt :=
  ⟨show 1 = (opcodeFields (opcodeByte .hlt)).nops.toNat + 1 by decide, rfl⟩
theorem call (t : Byte) : Statement (.call t) :=
  ⟨show 2 = (opcodeFields (opcodeByte .call)).nops.toNat + 1 by decide, rfl⟩
theorem ret : Statement .ret :=
  ⟨show 1 = (opcodeFields (opcodeByte .ret)).nops.toNat + 1 by decide, rfl⟩
theorem add (a b : Byte) : Statement (.add a b) :=
  ⟨show 3 = (opcodeFields (opcodeByte .add)).nops.toNat + 1 by decide, rfl⟩
theorem mul (a b : Byte) : Statement (.mul a b) :=
  ⟨show 3 = (opcodeFields (opcodeByte .mul)).nops.toNat + 1 by decide, rfl⟩

end Sys2Proof.Laws.EncodedLength
end

