-- ==== Sys2Proof/Tests/Slice0.lean ====
section
/-! SUPPORT. Tests of the model against spec/95_test_vectors.md, the refusals of the well-formedness
check, and for every statement with hypotheses a state and operands that meet them all. -/

namespace Sys2Proof.Machine.Tests

/-! ## Helpers -/

/-- The reset state with pc at `pc`, `code` placed from there and register 7 set to `sp`. -/
def startAt (pc sp : Byte) (code : List Byte) : State :=
  (({ State.reset with pc := pc }).placeWords pc code).setSp sp

/-- One observation of the state an outcome leads to. -/
def after {α : Type} (r : Result) (f : State → α) : Option α :=
  match r with
  | .next t => some (f t)
  | .fault _ => none
  | .refused _ => none

/-- RUN, CAUSE, pc and OUT together. -/
def control (s : State) : RunState × Cause × Byte × List Event := (s.run, s.cause, s.pc, s.out)

/-! ## Well-formedness refuses each illegal register cell (R63) -/

theorem test_illFormed_ldi : (Instr.ldi 8 0).wellFormed = false := by decide
theorem test_illFormed_prn : (Instr.prn 255).wellFormed = false := by decide
theorem test_illFormed_push : (Instr.push 8).wellFormed = false := by decide
theorem test_illFormed_pop : (Instr.pop 16).wellFormed = false := by decide
theorem test_illFormed_call : (Instr.call 8).wellFormed = false := by decide
theorem test_illFormed_add :
    (Instr.add 8 0).wellFormed = false ∧ (Instr.add 0 8).wellFormed = false := by decide
theorem test_illFormed_mul :
    (Instr.mul 128 0).wellFormed = false ∧ (Instr.mul 0 128).wellFormed = false := by decide
theorem test_wellFormed_boundary : (Instr.ldi 7 255).wellFormed = true ∧
    (Instr.add 7 7).wellFormed = true := by decide

/-! ## Decoding: words written out bit by bit from R61, R62 and R66 -/

theorem test_decode_ldi : decode 0b10000010 3 200 = .ok (.ldi 3 200) := by decide
theorem test_decode_prn : decode 0b01000111 2 0xFF = .ok (.prn 2) := by decide
theorem test_decode_push : decode 0b01000101 1 0xFF = .ok (.push 1) := by decide
theorem test_decode_pop : decode 0b01000110 6 0xFF = .ok (.pop 6) := by decide
theorem test_decode_hlt : decode 0b00000001 0xFF 0xFF = .ok .hlt := by decide
theorem test_decode_call : decode 0b01010000 1 0xFF = .ok (.call 1) := by decide
theorem test_decode_ret : decode 0b00010001 0xFF 0xFF = .ok .ret := by decide
theorem test_decode_add : decode 0b10100000 2 5 = .ok (.add 2 5) := by decide
theorem test_decode_mul : decode 0b10100010 0 1 = .ok (.mul 0 1) := by decide

/-- Part B of the vectors: the fields of a byte with both flags and NOPS = 3. -/
theorem test_fields_ff : opcodeFields 0xFF = ⟨3, true, true, 15⟩ := by decide

/-- Part B of the vectors: every undefined byte listed there is rejected by name. -/
theorem test_decode_undefined :
    ([0x00, 0x02, 0x41, 0x85, 0xC2, 0x10, 0x51, 0x12, 0xA1, 0x20, 0x60, 0xE2, 0xB0, 0xFF] : List Byte).all
      (fun b => decide (decode b 0 0 = .error (.unsupportedOperation b))) = true := by decide

/-- Part B of the vectors: 9 defined byte values, 247 undefined. -/
theorem test_nine_defined :
    ((List.range 256).filter (fun n => (selectOp (BitVec.ofNat 8 n)).isSome)).length = 9 := by decide

theorem test_decodeBytes_truncated :
    decodeBytes [0x82, 3] = .error (.truncated 0x82) ∧ decodeBytes [] = .error .noBytes := by decide

/-- R73's examples. -/
theorem test_encode : encode (.ldi 3 200) = [0x82, 0x03, 0xC8] ∧ encode (.mul 0 1) = [0xA2, 0, 1] ∧
    encode .ret = [0x11] := by decide

/-! ## One cycle, from part C of the vectors -/

/-- C1: 200 + 100 wraps to 44; the other source is kept. -/
theorem test_add_wraps :
    after (step (((startAt 0x06 0xF4 [0xA0, 0, 1]).setReg 0 200).setReg 1 100))
      (fun t => (t.reg 0, t.reg 1, t.pc)) = some (44, 100, 0x09) := by decide

/-- C1: the destination is also the second source. -/
theorem test_add_same_register :
    after (step ((startAt 0 0xF4 [0xA0, 2, 2]).setReg 2 0x80)) (fun t => t.reg 2) = some 0 := by decide

/-- C1: 255 * 255 = 65025, low byte 1. -/
theorem test_mul_low_byte :
    after (step (((startAt 0x06 0xF4 [0xA2, 0, 1]).setReg 0 255).setReg 1 255))
      (fun t => (t.reg 0, t.pc)) = some (1, 0x09) := by decide

/-- C1: the square of 12. -/
theorem test_mul_same_register :
    after (step ((startAt 0 0xF4 [0xA2, 1, 1]).setReg 1 12)) (fun t => t.reg 1) = some 144 := by decide

/-- C2: PUSH R7 stores SP as it was before the decrement. -/
theorem test_push_sp :
    after (step (startAt 0x10 0xF4 [0x45, 7])) (fun t => (t.sp, t.memRead 0xF3, t.pc)) =
      some (0xF3, 0xF4, 0x12) := by decide

/-- C2 and S4: overflow stores nothing and still advances pc. -/
theorem test_push_overflow :
    after (step (((startAt 0x10 0 [0x45, 0]).setReg 0 0x77).memWrite 0 0x82))
      (fun t => (control t, t.sp, t.memRead 0)) =
      some ((.halted, .stackOverflow, 0x12, [.overflowWarning]), 0, 0x82) := by decide

/-- C2 and S5: a POP from the empty stack loads the register and corrects SP. -/
theorem test_pop_underflow :
    after (step ((startAt 0 0xF4 [0x46, 0]).memWrite 0xF4 0x5A)) (fun t => (t.reg 0, t.sp, t.run, t.out)) =
      some (0x5A, 0xF4, .running, [.underflowWarning]) := by decide

/-- C2: POP R7 increments the value just loaded. -/
theorem test_pop_sp :
    after (step ((startAt 0x10 0xF3 [0x46, 7]).memWrite 0xF3 0x20)) (fun t => (t.sp, t.out)) =
      some (0x21, []) := by decide

/-- C3: CALL at 0xFF takes its operand from cell 0 and pushes 0, not 1. -/
theorem test_call_top_of_memory :
    after (step ((startAt 0xFF 0xF4 [0x50, 1]).setReg 1 0x30))
      (fun t => (t.memRead 0xF3, t.sp, t.pc)) = some (0, 0xF3, 0x30) := by decide

/-- C3: CALL R7 jumps to the decremented SP. -/
theorem test_call_sp :
    after (step (startAt 0x20 0xF4 [0x50, 7])) (fun t => (t.memRead 0xF3, t.sp, t.pc)) =
      some (0x22, 0xF3, 0xF3) := by decide

/-- C3: RET leaves SP. -/
theorem test_ret_keeps_sp :
    after (step ((startAt 10 0xF3 [0x11]).memWrite 0xF3 2)) (fun t => (t.pc, t.sp)) =
      some (2, 0xF3) := by decide

/-- C3: RET on the empty stack sends no diagnostic. -/
theorem test_ret_empty_stack :
    after (step ((startAt 0x40 0xF4 [0x11]).memWrite 0xF4 0x10)) (fun t => (t.pc, t.sp, t.out)) =
      some (0x10, 0xF4, []) := by decide

/-- C4: LDI at 0xFE takes its immediate from cell 0 and is followed by address 0. -/
theorem test_ldi_straddles_top :
    after (step (startAt 0xFE 0xF4 [0x82, 3, 0x11])) (fun t => (t.reg 3, t.pc)) =
      some (0x11, 0) := by decide

/-- C4: LDI R7 moves SP with no guard. -/
theorem test_ldi_sp :
    after (step (startAt 0 0xF4 [0x82, 7, 0])) (fun t => (t.sp, t.out, t.pc)) =
      some (0, [], 3) := by decide

/-- C4 and S7: PRN at 0xFF, pc becomes 0. -/
theorem test_prn_wraps :
    after (step ((startAt 0xFF 0xF4 [0x47, 1]).setReg 1 42)) control =
      some (.running, .none, 0, [.print 42]) := by decide

/-- C4: HLT. -/
theorem test_hlt :
    after (step (startAt 0x0B 0xF4 [0x01])) control =
      some (.halted, .haltInstruction, 0x0C, []) := by decide

/-- C1: a bad second operand of ADD leaves the first register alone. -/
theorem test_add_bad_register :
    after (step ((startAt 0 0xF4 [0xA0, 0, 9]).setReg 0 5)) (fun t => (control t, t.reg 0)) =
      some ((.halted, .invalidRegister, 0, []), 5) := by decide

/-- C2: a bad operand of PUSH comes before the stack guard. -/
theorem test_push_bad_register :
    after (step (startAt 0 0 [0x45, 9])) control = some (.halted, .invalidRegister, 0, []) := by decide

/-- C6: an undefined opcode byte. -/
theorem test_unsupported :
    after (step (startAt 3 0xF4 [0x00])) control = some (.halted, .unsupportedOperation, 3, []) := by
  decide

/-- R166: the reported operand is the first bad one. -/
theorem test_report : fatalReport (startAt 0 0xF4 [0xA0, 9, 10]) = some (.invalidRegister 9) := by decide

/-- C5: the sequencer at the top of memory. -/
theorem test_nextSeq : [nextSeq 0 0, nextSeq 0 2, nextSeq 252 2, nextSeq 253 2, nextSeq 254 0,
    nextSeq 254 1, nextSeq 254 2, nextSeq 255 0, nextSeq 255 1, nextSeq 255 2] =
    [1, 3, 255, 0, 255, 0, 0, 0, 0, 0] := by decide

/-- Writing what an unlisted cell reads as removes the entry. -/
theorem test_memory_canonical :
    ((Memory.write [] 5 9).write 2 7).write 5 0 = [(2, 7)] ∧
      (((Memory.write [] 5 9).write 2 7).write 3 1).wf = true := by decide

/-- The first step after reset runs the placed word. -/
theorem test_withFetchWord :
    after (step (State.reset.withFetchWord 24 0xC80382)) (fun t => (t.reg 3, t.pc)) =
      some (200, 3) := by decide

/-- The loader refuses a program after the cycles have started (R149). -/
theorem test_load_after_start :
    hostLoad [0x01] ⟨State.reset, true⟩ = .refused .loadAfterStart := rfl

/-! ## Witnesses: each statement's hypotheses are met together -/

theorem witness_FlagBitsChooseTheTable :
    ((0x50 : Byte).toNat / 16 % 2 = 1) ∧
      ((0xA0 : Byte).toNat / 16 % 2 = 0 ∧ (0xA0 : Byte).toNat / 32 % 2 = 1) ∧
      ((0x82 : Byte).toNat / 16 % 2 = 0 ∧ (0x82 : Byte).toNat / 32 % 2 = 0) ∧
      ((0xB0 : Byte).toNat / 16 % 2 = 1 ∧ (0xB0 : Byte).toNat / 32 % 2 = 1) := by decide

theorem witness_ExactlyNineOpcodeBytes :
    (0x82 : Byte) ∈ ([0x82, 0x47, 0x45, 0x46, 0x01, 0x50, 0x11, 0xA0, 0xA2] : List Byte) ∧
      (0xA1 : Byte) ∉ ([0x82, 0x47, 0x45, 0x46, 0x01, 0x50, 0x11, 0xA0, 0xA2] : List Byte) := by decide

theorem witness_EncodeOfDecodeIsTheCells : decode 0x82 3 200 = .ok (.ldi 3 200) := by decide

theorem witness_CanonicalMemoriesThatReadAlikeAreEqual :
    Memory.wf [(2, 7), (255, 1)] = true ∧
      ((Memory.write [] 255 1).write 2 7).wf = true ∧
      ∀ a, Memory.read [(2, 7), (255, 1)] a = ((Memory.write [] 255 1).write 2 7).read a := by decide

theorem witness_StepRunsTheDecodedInstruction :
    (startAt 0xFF 0xF4 [0x82, 3, 200]).run = .running ∧
      decode ((startAt 0xFF 0xF4 [0x82, 3, 200]).memRead 0xFF)
        ((startAt 0xFF 0xF4 [0x82, 3, 200]).memRead (0xFF + 1))
        ((startAt 0xFF 0xF4 [0x82, 3, 200]).memRead (0xFF + 2)) = .ok (.ldi 3 200) := by decide

theorem witness_HaltedMachineNeverChanges :
    (State.reset.halt .haltInstruction).run = .halted := by decide

theorem witness_UnsupportedOperationOnlyHalts :
    (startAt 0xFF 0 [0xA1]).run = .running ∧ (startAt 0xFF 0 [0xA1]).memRead 0xFF ∉
      ([0x82, 0x47, 0x45, 0x46, 0x01, 0x50, 0x11, 0xA0, 0xA2] : List Byte) := by decide

theorem witness_InvalidRegisterOnlyHalts :
    ∃ b ∈ (Instr.add 7 8).registerCells, 7 < b.toNat := ⟨8, by decide, by decide⟩

/-- One state for each of the four clauses. -/
theorem witness_ReportedFatalConditionIsTaken :
    ((startAt 0 0xF4 [0x00]).run = .running ∧
      fatalReport (startAt 0 0xF4 [0x00]) = some (.unsupportedOperation 0)) ∧
    (fatalReport (startAt 0 0xF4 [0x01]) = none ∧ (startAt 0 0xF4 [0x01]).cause = .none) ∧
    ((startAt 0 0xF4 [0xA0, 8, 8]).fetchDecode = .ok (.add 8 8) ∧ 7 < (8 : Byte).toNat) ∧
    ((startAt 0 0xF4 [0xA2, 7, 8]).fetchDecode = .ok (.mul 7 8) ∧ (7 : Byte).toNat ≤ 7) := by decide

theorem witness_NextSeqResetsToZero :
    256 ≤ (253 : Byte).toNat + 2 + 1 ∧ (252 : Byte).toNat + 2 + 1 < 256 := by decide

/-- One state with PCF = 0, one with CALL and one with RET. -/
theorem witness_SequencerFollowsThePcSettingFlag :
    ((startAt 0xFF 0xF4 [0x47, 1]).run = .running ∧
      (startAt 0xFF 0xF4 [0x47, 1]).fetchDecode = .ok (.prn 1) ∧ (Instr.prn 1).wellFormed = true ∧
      (opcodeFields ((startAt 0xFF 0xF4 [0x47, 1]).memRead 0xFF)).pcf = false) ∧
    ((startAt 0 0xF4 [0x50, 7]).fetchDecode = .ok (.call 7) ∧ (Instr.call 7).wellFormed = true ∧
      (opcodeFields ((startAt 0 0xF4 [0x50, 7]).memRead 0)).pcf = true) ∧
    ((startAt 0 0xF4 [0x11]).fetchDecode = .ok .ret ∧ Instr.ret.wellFormed = true) := by decide

/-- An illegal operand cell at the boundary, for the second clauses of LDI, PRN, ADD and MUL. -/
theorem witness_illegal_register_cell : 7 < (8 : Byte).toNat := by decide

/-- SP at the guard, for PushPrimitiveIsGuardedAtZero and StackOverflowHaltsWithoutAWrite. -/
theorem witness_sp_at_guard : (startAt 0 0 []).sp = 0 := by decide

/-- SP just above the guard, for PushPrimitiveIsGuardedAtZero, PushStoresTheRegister,
CallPushesTheReturnAddress and CallThenReturnLowersSpByOne. -/
theorem witness_sp_above_guard : (startAt 0 1 []).sp ≠ 0 := by decide

/-- Both clauses of PopLoadsThenIncrements at the stack top, for a plain register and for R7. -/
theorem witness_PopLoadsThenIncrements :
    ((3 : Reg) ≠ Config.spIndex) ∧ (startAt 0 0xF3 []).sp.toNat + 1 ≤ 0xF4 ∧
      0xF4 < (startAt 0 0xF4 []).sp.toNat + 1 ∧
      ((startAt 0 0xF3 []).memWrite 0xF3 0xF3).memRead 0xF3 = 0xF3 := by decide

theorem witness_StackUnderflowIsCorrected :
    (0xF4 : Byte) = (if (3 : Reg) = Config.spIndex then (startAt 0 0xF4 []).memRead 0xF4
        else (startAt 0 0xF4 []).sp) ∧ 0xF4 < (0xF4 : Byte).toNat + 1 ∧
      after (exec (.pop 3) (startAt 0 0xF4 [])) State.out =
        some ((startAt 0 0xF4 []).out ++ [.underflowWarning]) := by decide

theorem witness_LastInFirstOut :
    ([4, 5] : List Reg).length = ([0, 1] : List Reg).length ∧ Config.spIndex ∉ ([0, 1] : List Reg) ∧
      Config.spIndex ∉ ([4, 5] : List Reg) ∧ ([0, 1] : List Reg).length ≤ (startAt 0 2 []).sp.toNat ∧
      (startAt 0 2 []).sp.toNat ≤ 0xF4 := by decide

theorem witness_StackPointerStaysInRange :
    after (step (startAt 0 0xF4 [0x46, 7])) State.sp = some 1 ∧
      (startAt 0 0xF4 [0x46, 7]).sp.toNat ≤ 0xF4 ∧
      ∀ v, (startAt 0 0xF4 [0x46, 7]).fetchDecode ≠ .ok (.ldi 7 v) ∧
        (startAt 0 0xF4 [0x46, 7]).fetchDecode ≠ .ok (.add 7 v) ∧
        (startAt 0 0xF4 [0x46, 7]).fetchDecode ≠ .ok (.mul 7 v) := by
  refine ⟨by decide, by decide, fun v => ?_⟩
  rw [show (startAt 0 0xF4 [0x46, 7]).fetchDecode = .ok (.pop 7) by decide]
  simp

/-- PoppingReturnIncrementsSp at both sides of the stack top. -/
theorem witness_PoppingReturnIncrementsSp :
    (startAt 0 0xF3 []).sp.toNat + 1 ≤ 0xF4 ∧ 0xF4 < (startAt 0 0xF4 []).sp.toNat + 1 := by decide

/-- For OnlyNamedRegistersAndSpAreUsed: a register that an ADD does not touch. -/
theorem witness_OnlyNamedRegistersAndSpAreUsed :
    (2 : Reg) ∉ touchedRegs (.add 0 1) ∧ (∃ t, exec (.add 0 1) State.reset = .next t) ∧
      (2 : Reg) ∉ writtenRegs (.add 0 1) := ⟨by decide, ⟨_, rfl⟩, by decide⟩

/-- For OnlyThePushedCellChanges: a PUSH that changes a cell. -/
theorem witness_OnlyThePushedCellChanges :
    ∃ t, exec (.push 7) State.reset = .next t ∧ t.memRead 0xF3 ≠ State.reset.memRead 0xF3 :=
  ⟨_, rfl, by decide⟩

/-- For OnlyTheStackCellIsRead: a POP, with a cell that is not the one at SP. -/
theorem witness_OnlyTheStackCellIsRead :
    (∃ t, exec (.pop 3) State.reset = .next t) ∧
      ((∃ d, Instr.pop 3 = .pop d) ∨ Instr.pop 3 = .ret → (0xF3 : Byte) ≠ State.reset.sp) :=
  ⟨⟨_, rfl⟩, fun _ => by decide⟩

/-- For FlagsAreNeitherReadNorWritten and CauseAndOutputAreNotRead: a step with a next state. -/
theorem witness_step_next : ∃ t, step (startAt 0 0xF4 [0xA0, 0, 1]) = .next t := ⟨_, rfl⟩

/-- One state for each kind of event, and one without: CALL and PUSH at the guard, PRN, POP at the
stack top and just below it, POP R7, RET. -/
theorem witness_CycleSendsItsEvents :
    ∀ p ∈ ([(0, [0x50, 1], .call 1), (0, [0x45, 1], .push 1), (0xF4, [0x47, 7], .prn 7),
        (0xF4, [0x46, 3], .pop 3), (0xF3, [0x46, 3], .pop 3), (0xFF, [0x46, 7], .pop 7),
        (0xF4, [0x11], .ret)] : List (Byte × List Byte × Instr)),
      (startAt 0 p.1 p.2.1).run = .running ∧ (startAt 0 p.1 p.2.1).fetchDecode = .ok p.2.2 ∧
        p.2.2.wellFormed = true := by decide

theorem witness_CauseRecordsWhyTheMachineHalted :
    (startAt 0 0 [0x45, 1]).run = .running ∧ (startAt 0 0 [0x45, 1]).cause = .none := by decide

/-- For PushedCellIsSeenByTheNextFetch: a PUSH onto the cell that is fetched next, as opcode byte, as
first and as second operand cell. -/
theorem witness_PushedCellIsSeenByTheNextFetch :
    ((startAt 0 3 [0x45, 0]).run = .running ∧
      (startAt 0 3 [0x45, 0]).fetchDecode = .ok (.push (regCell 0)) ∧ (startAt 0 3 [0x45, 0]).sp ≠ 0) ∧
    after (step (startAt 0 3 [0x45, 0])) (fun t => t.pc) = some (3 - 1) ∧
    after (step (startAt 0 4 [0x45, 0])) (fun t => t.pc + 1) = some (4 - 1) ∧
    after (step (startAt 0 5 [0x45, 0])) (fun t => t.pc + 2) = some (5 - 1) := by decide

/-- For CallPushedCellIsSeenByTheNextFetch: a CALL to address 0 onto each of the three cells fetched
next, which are its own, and a CALL R7. -/
theorem witness_CallPushedCellIsSeenByTheNextFetch :
    ((startAt 0 1 [0x50, 1]).run = .running ∧
      (startAt 0 1 [0x50, 1]).fetchDecode = .ok (.call (regCell 1)) ∧ (startAt 0 1 [0x50, 1]).sp ≠ 0) ∧
    after (step (startAt 0 1 [0x50, 1])) (fun t => t.pc) = some (1 - 1) ∧
    after (step (startAt 0 2 [0x50, 1])) (fun t => t.pc + 1) = some (2 - 1) ∧
    after (step (startAt 0 3 [0x50, 1])) (fun t => t.pc + 2) = some (3 - 1) ∧
    after (step (startAt 0 9 [0x50, 7])) (fun t => t.pc) = some (9 - 1) := by decide

/-- For EveryStepKeepsTheStateLegal: a legal state with a listed memory, and its step. -/
theorem witness_EveryStepKeepsTheStateLegal :
    (startAt 0 0xF4 [0x45, 7]).Legal ∧ ∃ t, step (startAt 0 0xF4 [0x45, 7]) = .next t :=
  ⟨⟨by decide, by decide, by decide⟩, ⟨_, rfl⟩⟩

/-- Both clauses of LoaderPlacesTheProgram at the boundary of 256 words, and a started session. -/
theorem witness_LoaderPlacesTheProgram :
    (List.replicate 256 (0x01 : Byte)).length ≤ 256 ∧ 256 < (List.replicate 257 (0x01 : Byte)).length ∧
      ∃ y, hostCycle ⟨State.reset, false⟩ = .next y :=
  ⟨by rw [List.length_replicate], by rw [List.length_replicate]; decide, ⟨_, rfl⟩⟩

theorem witness_RunStartsAtTheFirstWord :
    ([0x82, 3, 200] : List Byte).length ≤ 256 ∧ ([0x82, 3, 200] : List Byte)[2]? = some 200 := by decide

theorem witness_PlacedWordRunsNext : decodeTableWord 24 0xC80382 = some (.ldi 3 200) := by decide

end Sys2Proof.Machine.Tests
end

section
/-! SUPPORT. Which registers a cycle reads and writes, and the bound on SP (spec/10_state.md R24,
R25): first what a write to one register leaves of each operation of the state, then the
instructions. -/

namespace Sys2Proof.Machine

/-! ## A register that an operation does not write -/

section
variable {q : Reg} (s : State)

theorem setReg_reg_of_ne {r : Reg} (v : Byte) (hq : q ≠ r) : (s.setReg r v).reg q = s.reg q := by
  rw [setReg_reg, if_neg hq]

theorem setReg_sp_of_ne (v : Byte) (hq : q ≠ Config.spIndex) : (s.setReg q v).sp = s.sp :=
  setReg_reg_of_ne s v hq.symm

theorem push_reg_of_ne (v : Byte) (hq : q ≠ Config.spIndex) : (s.push v).reg q = s.reg q := by
  obtain ⟨-, h⟩ | ⟨-, h⟩ := push_cases s v
  · rw [h, halt_reg, emit_reg]
  · rw [h, memWrite_reg, setSp_reg, if_neg hq]

theorem bumpSp_reg_of_ne (hq : q ≠ Config.spIndex) : s.bumpSp.reg q = s.reg q := by
  obtain ⟨-, h⟩ | ⟨-, h⟩ := bumpSp_cases s
  · rw [h, setSp_reg, if_neg hq, emit_reg]
  · rw [h, setSp_reg, if_neg hq]

end

/-! ## Setting a register commutes with what does not touch it

The write to the untouched register moves outwards. -/

section
variable (s : State) (r : Reg) (v a w : Byte)

theorem setReg_setPc : (s.setReg r v).setPc a = (s.setPc a).setReg r v := rfl
theorem setReg_advance (n : Nat) :
    (s.setReg r v).advance n = (s.advance n).setReg r v := rfl
theorem setReg_emit (e : Event) : (s.setReg r v).emit e = (s.emit e).setReg r v := rfl
theorem setReg_halt (c : Cause) : (s.setReg r v).halt c = (s.halt c).setReg r v := rfl
theorem setReg_raise (f : Fault) : (s.setReg r v).raise f = (s.raise f).setReg r v := rfl
theorem setReg_memWrite :
    (s.setReg r v).memWrite a w = (s.memWrite a w).setReg r v := rfl

variable {r}

theorem setReg_setReg_comm {q : Reg} (h : r ≠ q) :
    (s.setReg r v).setReg q w = (s.setReg q w).setReg r v := by
  have hx := Vector.set_comm (xs := s.x) v w (hi := r.isLt) (hj := q.isLt) (Fin.val_ne_of_ne h)
  simp only [State.setReg, hx]

theorem setReg_setSp_comm (h : r ≠ Config.spIndex) :
    (s.setReg r v).setSp w = (s.setSp w).setReg r v := setReg_setReg_comm s v w h

/-- The sources and the destination of an ADD or a MUL. -/
theorem setReg_alu_comm (f : Byte → Byte → Byte) {a b : Reg} (ha : r ≠ a) (hb : r ≠ b) :
    (s.setReg r v).setReg a (f ((s.setReg r v).reg a) ((s.setReg r v).reg b)) =
      (s.setReg a (f (s.reg a) (s.reg b))).setReg r v := by
  rw [setReg_reg_of_ne s v ha.symm, setReg_reg_of_ne s v hb.symm, setReg_setReg_comm s v _ ha]

theorem setReg_push_comm (h : r ≠ Config.spIndex) :
    (s.setReg r v).push w = (s.push w).setReg r v := by
  have hsp := setReg_sp_of_ne s v h
  by_cases h0 : s.sp = 0
  · rw [push_overflow _ w (hsp.trans h0), push_overflow s w h0, setReg_emit, setReg_halt]
  · rw [push_room _ w (hsp ▸ h0), push_room s w h0, hsp, setReg_setSp_comm s v _ h, setReg_memWrite]

theorem setReg_bumpSp_comm (h : r ≠ Config.spIndex) :
    (s.setReg r v).bumpSp = s.bumpSp.setReg r v := by
  have hsp := setReg_sp_of_ne s v h
  by_cases h0 : s.sp.toNat + 1 > 0xF4
  · rw [bumpSp_underflow _ (hsp ▸ h0), bumpSp_underflow s h0, setReg_emit,
      setReg_setSp_comm _ v _ h]
  · rw [bumpSp_room _ (hsp ▸ Nat.not_lt.1 h0), bumpSp_room s (Nat.not_lt.1 h0), hsp,
      setReg_setSp_comm s v _ h]

end

/-! ## The registers of an instruction (R24) -/

/-- A cell gives `writtenRegs` and `touchedRegs` the register it names, if any. -/
theorem mem_checkReg_iff (r : Reg) (b : Byte) :
    r ∈ (checkReg b).toOption.toList ↔ b = regCell r := by
  by_cases h : 7 < b.toNat
  · have hb : b ≠ regCell r := by rintro rfl; rw [regCell_toNat] at h; omega
    simp [checkReg_illegal h, Except.toOption, hb]
  · obtain ⟨q, rfl⟩ := (registerCellLegal_iff b).1 (by simp [registerCellLegal]; omega)
    have hinj : regCell q = regCell r ↔ q = r :=
      ⟨fun h => Fin.ext (by rw [← regCell_toNat, ← regCell_toNat, h]), congrArg regCell⟩
    simp [Except.toOption, hinj, eq_comm]

/-- R24, what is written: an instruction leaves every register outside `writtenRegs`. -/
theorem exec_writes_only_writtenRegs (i : Instr) (s t : State) (h : exec i s = .next t) :
    SameRegistersExcept (writtenRegs i) s t := by
  intro q hq
  cases hwf : i.wellFormed with
  | false =>
    obtain ⟨b, -, hb⟩ := exec_illFormed i s hwf
    cases hb.symm.trans h
    rfl
  | true =>
    obtain ⟨r, v, rfl⟩ | ⟨r, rfl⟩ | ⟨r, rfl⟩ | ⟨r, rfl⟩ | rfl | ⟨r, rfl⟩ | rfl | ⟨a, b, rfl⟩ |
      ⟨a, b, rfl⟩ := wellFormed_cases i hwf <;>
      simp only [writtenRegs, checkReg_regCell, Except.toOption, Option.toList_some,
        List.mem_cons, List.not_mem_nil, not_or, or_false] at hq
    · cases (exec_ldi s r v).symm.trans h
      exact setReg_reg_of_ne s v hq
    · cases (exec_prn s r).symm.trans h
      rfl
    · cases (exec_push s r).symm.trans h
      exact push_reg_of_ne s _ hq
    · cases (exec_pop s r).symm.trans h
      exact (bumpSp_reg_of_ne _ hq.1).trans (setReg_reg_of_ne s _ hq.2)
    · cases (exec_hlt s).symm.trans h
      rfl
    · cases (exec_call s r).symm.trans h
      exact push_reg_of_ne s _ hq
    · cases (exec_ret s).symm.trans h
      rfl
    · cases (exec_add s a b).symm.trans h
      exact setReg_reg_of_ne s _ hq
    · cases (exec_mul s a b).symm.trans h
      exact setReg_reg_of_ne s _ hq

/-- R24, what is read: a write to a register outside `touchedRegs` commutes with the instruction. -/
theorem exec_setReg_comm (i : Instr) (s t : State) (q : Reg) (v : Byte) (hq : q ∉ touchedRegs i)
    (h : exec i s = .next t) : exec i (s.setReg q v) = .next (t.setReg q v) := by
  cases hwf : i.wellFormed with
  | false =>
    obtain ⟨b, hf, hb⟩ := exec_illFormed i s hwf
    obtain ⟨c, hf', hc⟩ := exec_illFormed i (s.setReg q v) hwf
    cases hf.symm.trans hf'
    cases hb.symm.trans h
    rw [hc, setReg_raise]
  | true =>
    obtain ⟨r, w, rfl⟩ | ⟨r, rfl⟩ | ⟨r, rfl⟩ | ⟨r, rfl⟩ | rfl | ⟨r, rfl⟩ | rfl | ⟨a, b, rfl⟩ |
      ⟨a, b, rfl⟩ := wellFormed_cases i hwf <;>
      simp only [touchedRegs, checkReg_regCell, Except.toOption, Option.toList_some,
        List.mem_cons, List.mem_append, List.not_mem_nil, not_or, or_false] at hq
    · cases (exec_ldi s r w).symm.trans h
      rw [exec_ldi, setReg_setReg_comm s v w hq, setReg_advance]
    · cases (exec_prn s r).symm.trans h
      rw [exec_prn, setReg_reg_of_ne s v (Ne.symm hq), setReg_emit, setReg_advance]
    · obtain ⟨hsp, hr⟩ := hq
      cases (exec_push s r).symm.trans h
      rw [exec_push, setReg_reg_of_ne s v (Ne.symm hr), setReg_push_comm s v _ hsp, setReg_advance]
    · obtain ⟨hsp, hr⟩ := hq
      cases (exec_pop s r).symm.trans h
      rw [exec_pop, setReg_sp_of_ne s v hsp, setReg_memRead, setReg_setReg_comm s v _ hr,
        setReg_bumpSp_comm _ v hsp, setReg_advance]
    · cases (exec_hlt s).symm.trans h
      rw [exec_hlt, setReg_halt, setReg_advance]
    · obtain ⟨hsp, hr⟩ := hq
      cases (exec_call s r).symm.trans h
      rw [exec_call, setReg_pc, setReg_push_comm s v _ hsp, setReg_reg_of_ne _ v (Ne.symm hr),
        setReg_setPc]
    · cases (exec_ret s).symm.trans h
      rw [exec_ret, setReg_sp_of_ne s v hq, setReg_memRead, setReg_setPc]
    · cases (exec_add s a b).symm.trans h
      rw [exec_add, setReg_alu_comm s v aluAdd hq.1 hq.2, setReg_advance]
    · cases (exec_mul s a b).symm.trans h
      rw [exec_mul, setReg_alu_comm s v aluMul hq.1 hq.2, setReg_advance]

/-- Settles O33, from the write frame and the commutation of each instruction. -/
theorem onlyNamedRegistersAndSpAreUsed : Obligations.OnlyNamedRegistersAndSpAreUsed :=
  ⟨exec_writes_only_writtenRegs, exec_setReg_comm⟩

/-! ## The bound on SP (R25) -/

/-- The instructions that may write SP: LDI, ADD and MUL to R7, and the stack operations but RET. -/
theorem spIndex_mem_writtenRegs (i : Instr) (hwf : i.wellFormed = true)
    (h : Config.spIndex ∈ writtenRegs i) :
    (∃ v, i = .ldi 7 v ∨ i = .add 7 v ∨ i = .mul 7 v) ∨
      ∃ r, i = .push (regCell r) ∨ i = .pop (regCell r) ∨ i = .call (regCell r) := by
  cases i with
  | push c | pop c | call c =>
    obtain ⟨r, rfl⟩ := (registerCellLegal_iff c).1
      (by simpa [Instr.wellFormed, Instr.registerCells] using hwf)
    exact .inr ⟨r, by simp⟩
  | prn _ | hlt | ret => simp [writtenRegs] at h
  | ldi d v | add d v | mul d v =>
    obtain rfl := (mem_checkReg_iff _ d).1 h
    exact .inl ⟨v, by simp [regCell, Config.spIndex]⟩

/-- A push never raises SP: at SP = 0 it leaves it, else it decrements it. -/
theorem push_sp_le (s : State) (v : Byte) : (s.push v).sp.toNat ≤ s.sp.toNat := by
  obtain ⟨-, h⟩ | ⟨h0, h⟩ := push_cases s v
  · rw [h, halt_sp, emit_sp]
  · rw [h, memWrite_sp, setSp_sp, ← decrement_toNat h0]
    exact Nat.le_succ _

/-- The increment after a pop ends at or below the stack top wherever SP was (D11). -/
theorem bumpSp_sp_le (s : State) : s.bumpSp.sp.toNat ≤ 0xF4 := by
  obtain ⟨-, h⟩ | ⟨hroom, h⟩ := bumpSp_cases s
  · rw [h, setSp_sp]
    decide
  · rw [h, setSp_sp, increment_toNat hroom]
    exact hroom

/-- An instruction that does not write R7 as the destination of LDI, ADD or MUL keeps the bound. -/
theorem exec_sp_le (i : Instr) (s t : State) (h : exec i s = .next t) (hs : s.sp.toNat ≤ 0xF4)
    (hd : ∀ v, i ≠ .ldi 7 v ∧ i ≠ .add 7 v ∧ i ≠ .mul 7 v) : t.sp.toNat ≤ 0xF4 := by
  by_cases hw : Config.spIndex ∈ writtenRegs i
  · cases hwf : i.wellFormed with
    | false =>
      obtain ⟨b, -, hb⟩ := exec_illFormed i s hwf
      cases hb.symm.trans h
      exact hs
    | true =>
      obtain ⟨v, hv⟩ | ⟨r, rfl | rfl | rfl⟩ := spIndex_mem_writtenRegs i hwf hw
      · obtain ⟨hldi, hadd, hmul⟩ := hd v
        exact absurd hv (not_or.2 ⟨hldi, not_or.2 ⟨hadd, hmul⟩⟩)
      · cases (exec_push s r).symm.trans h
        exact (push_sp_le s _).trans hs
      · cases (exec_pop s r).symm.trans h
        exact bumpSp_sp_le _
      · cases (exec_call s r).symm.trans h
        exact (push_sp_le s _).trans hs
  · have hsp : t.sp = s.sp := exec_writes_only_writtenRegs i s t h _ hw
    rwa [hsp]

/-- Settles O26: only a decoded instruction moves SP, and `exec_sp_le` bounds where to. -/
theorem stackPointerStaysInRange : Obligations.StackPointerStaysInRange := by
  intro s t h hs hd
  obtain ⟨-, hstep⟩ | ⟨-, i, hi, hstep⟩ | ⟨-, -, hstep⟩ := step_cases s
  · cases hstep.symm.trans h
    exact hs
  · exact exec_sp_le i s t (hstep.symm.trans h) hs fun v => by simpa [hi] using hd v
  · cases hstep.symm.trans h
    exact hs

end Sys2Proof.Machine
end

section
/-! SUPPORT. Memory as the programmer sees it (spec/20_memory.md R41, R50, R51): the most recent write
is what a read gives, and a cell that PUSH or CALL stores is what the next fetch reads. -/

namespace Sys2Proof.Machine

/-! ## Reads and writes (R41) -/

/-- The last write decides: it either hits the address or is passed over. -/
theorem foldl_memWrite_memRead (s : State) (ws : List (Byte × Byte)) (a : Byte) :
    (ws.foldl (fun u w => u.memWrite w.1 w.2) s).memRead a =
      ((ws.reverse.find? (fun w => w.1 == a)).map Prod.snd).getD (s.memRead a) := by
  induction ws using List.reverseRecOn with
  | nil => rfl
  | append_singleton ws w ih =>
    rw [List.foldl_concat, memWrite_memRead, List.reverse_concat]
    by_cases h : w.1 = a
    · simp [h]
    · rw [if_neg (Ne.symm h), ih, List.find?_cons_of_neg (by simpa using h)]

theorem memWrite_sameMemoryExcept (s : State) (a v : Byte) :
    SameMemoryExcept [a] s (s.memWrite a v) := by
  intro b hb
  rw [memWrite_memRead, if_neg (List.ne_of_not_mem_cons hb)]

/-- Settles O7, from the last write of a sequence and the frame of one write. -/
theorem readGivesTheMostRecentWrite : Obligations.ReadGivesTheMostRecentWrite :=
  ⟨foldl_memWrite_memRead, fun s a v =>
    ⟨fun r _ => memWrite_reg s r a v, memWrite_sameMemoryExcept s a v,
      ⟨memWrite_fl s a v, memWrite_run s a v, memWrite_cause s a v⟩,
      memWrite_pc s a v, memWrite_out s a v⟩⟩

/-! ## What the next fetch reads -/

theorem fetchIr_eq (s : State) : s.fetchIr = s.memRead s.pc := by
  simp [State.fetchIr, State.cellAddr]

theorem fetchOp1_eq (s : State) : s.fetchOp1 = s.memRead (s.pc + 1) := rfl

theorem fetchOp2_eq (s : State) : s.fetchOp2 = s.memRead (s.pc + 2) := rfl

/-- A fetch reads a cell as memory holds it, whichever of its three cells that is. -/
theorem fetch_sees_cell {t : State} {a v : Byte} (h : t.memRead a = v) :
    (t.pc = a → t.fetchIr = v) ∧ (t.pc + 1 = a → t.fetchOp1 = v) ∧
      (t.pc + 2 = a → t.fetchOp2 = v) :=
  ⟨fun hpc => by rw [fetchIr_eq, hpc, h], fun hpc => by rw [fetchOp1_eq, hpc, h],
    fun hpc => by rw [fetchOp2_eq, hpc, h]⟩

/-! ## The cell a push stores -/

theorem push_pc (s : State) (v : Byte) : (s.push v).pc = s.pc := by
  obtain ⟨-, h⟩ | ⟨-, h⟩ := push_cases s v
  · rw [h, halt_pc, emit_pc]
  · rw [h, memWrite_pc, setSp_pc]

theorem push_memRead_pushed {s : State} (v : Byte) (h : s.sp ≠ 0) :
    (s.push v).memRead (s.sp - 1) = v := by
  rw [push_room s v h, memWrite_memRead, if_pos rfl]

/-- A register after a push that is not at the guard. -/
theorem push_reg_room {s : State} (v : Byte) (r : Reg) (h : s.sp ≠ 0) :
    (s.push v).reg r = if r = Config.spIndex then s.sp - 1 else s.reg r := by
  rw [push_room s v h, memWrite_reg, setSp_reg]

/-- Settles O40: the PUSH runs as decoded, and the fetch reads the state that its push leaves. -/
theorem pushedCellIsSeenByTheNextFetch : Obligations.PushedCellIsSeenByTheNextFetch := by
  intro s r hrun hdec hsp
  have hcell : ((s.push (s.reg r)).advance 1).memRead (s.sp - 1) = s.reg r :=
    push_memRead_pushed _ hsp
  exact ⟨_, (step_decoded hrun hdec).trans (exec_push s r), hcell,
    congrArg (nextSeq · 1) (push_pc s _), fetch_sees_cell hcell⟩

/-- Settles O48: the CALL runs as decoded, and the fetch at its target reads the state that its push
leaves. -/
theorem callPushedCellIsSeenByTheNextFetch : Obligations.CallPushedCellIsSeenByTheNextFetch := by
  intro s r hrun hdec hsp
  have hcell : ((s.push (nextSeq s.pc 1)).setPc ((s.push (nextSeq s.pc 1)).reg r)).memRead
      (s.sp - 1) = nextSeq s.pc 1 := push_memRead_pushed _ hsp
  exact ⟨_, (step_decoded hrun hdec).trans (exec_call s r), hcell, push_reg_room _ r hsp,
    fetch_sees_cell hcell⟩

end Sys2Proof.Machine
end

section
/-! SUPPORT. The encoding (spec/30_encoding.md): the fields of an opcode byte (R61), the operation an
opcode byte selects (R65, R68), and the decoder and the encoder as each other's inverse (R60, R69). -/

namespace Sys2Proof

/-! ## The fields of an opcode byte (R61) -/

section
variable (b : Byte)

theorem opcodeFields_nops_toNat : (opcodeFields b).nops.toNat = b.toNat / 64 := by
  have h : (opcodeFields b).nops.toNat = b.toNat >>> 6 % 2 ^ 2 := BitVec.extractLsb_toNat ..
  rw [h, Nat.shiftRight_eq_div_pow]
  omega

theorem opcodeFields_opid_toNat : (opcodeFields b).opid.toNat = b.toNat % 16 :=
  BitVec.extractLsb_toNat ..

theorem opcodeFields_aluf_iff : (opcodeFields b).aluf = true ↔ b.toNat / 32 % 2 = 1 := by
  have h : (opcodeFields b).aluf = b.toNat.testBit 5 := rfl
  rw [h, Nat.testBit_eq_decide_div_mod_eq, decide_eq_true_iff]

theorem opcodeFields_pcf_iff : (opcodeFields b).pcf = true ↔ b.toNat / 16 % 2 = 1 := by
  have h : (opcodeFields b).pcf = b.toNat.testBit 4 := rfl
  rw [h, Nat.testBit_eq_decide_div_mod_eq, decide_eq_true_iff]

end

/-! ## The opcode byte of each operation (R66) -/

theorem aluf_opcodeByte_iff (op : Op) :
    (opcodeFields (opcodeByte op)).aluf = true ↔ op = .add ∨ op = .mul := by
  cases op <;> decide

theorem pcf_opcodeByte_iff (op : Op) :
    (opcodeFields (opcodeByte op)).pcf = true ↔ op = .call ∨ op = .ret := by
  cases op <;> decide

/-- Within the table its flags choose, an operation is found by its OPID alone. -/
theorem find?_tableOps_opid (op : Op) :
    (tableOps (dispatchTable (opcodeFields (opcodeByte op)))).find? (fun q =>
      (opcodeFields (opcodeByte q)).opid == (opcodeFields (opcodeByte op)).opid) = some op := by
  cases op <;> decide

theorem op_eq_of_table_and_opid_eq {p q : Op}
    (htable : dispatchTable (opcodeFields (opcodeByte p)) =
      dispatchTable (opcodeFields (opcodeByte q)))
    (hopid : (opcodeFields (opcodeByte p)).opid = (opcodeFields (opcodeByte q)).opid) : p = q := by
  have hp := find?_tableOps_opid p
  rw [htable, hopid, find?_tableOps_opid q] at hp
  exact (Option.some.inj hp).symm

/-- A whole byte selects the operation whose opcode byte it is, and no other (R68). -/
theorem selectOp_eq_some_iff (b : Byte) (op : Op) : selectOp b = some op ↔ opcodeByte op = b := by
  constructor
  · intro h
    exact eq_of_beq (List.find?_some (p := fun q => opcodeByte q == b) h)
  · rintro rfl
    cases op <;> decide

/-! ## The length of an instruction (R60, R69) -/

/-- The laws of the nine constructors together. -/
theorem encodedLength (i : Instr) : Laws.EncodedLength.Statement i := by
  cases i with
  | ldi d imm => exact Laws.EncodedLength.ldi d imm
  | prn s => exact Laws.EncodedLength.prn s
  | push s => exact Laws.EncodedLength.push s
  | pop d => exact Laws.EncodedLength.pop d
  | hlt => exact Laws.EncodedLength.hlt
  | call t => exact Laws.EncodedLength.call t
  | ret => exact Laws.EncodedLength.ret
  | add a b => exact Laws.EncodedLength.add a b
  | mul a b => exact Laws.EncodedLength.mul a b

theorem length_eq_nops (i : Instr) :
    i.length = (opcodeFields (opcodeByte i.op)).nops.toNat + 1 := (encodedLength i).1

theorem encode_length (i : Instr) : (encode i).length = i.length := (encodedLength i).2

theorem operandCells_length_le (i : Instr) : i.operandCells.length ≤ 2 := by
  cases i <;> simp [Instr.operandCells]

/-- Settles O2: the fields of any byte, the opcode byte of each operation, and the OPIDs of a table. -/
theorem opcodeByteFields : Obligations.OpcodeByteFields :=
  ⟨fun b => ⟨opcodeFields_nops_toNat b, opcodeFields_aluf_iff b, opcodeFields_pcf_iff b,
      opcodeFields_opid_toNat b⟩,
    fun i => ⟨(Nat.succ.inj (length_eq_nops i)).symm, operandCells_length_le i,
      aluf_opcodeByte_iff i.op, pcf_opcodeByte_iff i.op⟩,
    fun _ _ => op_eq_of_table_and_opid_eq⟩

/-! ## Operand routing and its inverse (R84) -/

/-- Routing an operation's own operand cells, followed by anything, builds the instruction again. -/
theorem routeOperands_operandCells (i : Instr) (rest : List Byte) :
    routeOperands i.op ((i.operandCells ++ rest).getD 0 0) ((i.operandCells ++ rest).getD 1 0) =
      i := by
  cases i <;> rfl

theorem routeOperands_op (op : Op) (op1 op2 : Byte) : (routeOperands op op1 op2).op = op := by
  cases op <;> rfl

/-- Routing drops the cells that the operation does not take, and the encoding keeps the others. -/
theorem encode_routeOperands (op : Op) (op1 op2 : Byte) :
    encode (routeOperands op op1 op2) =
      [opcodeByte op, op1, op2].take (routeOperands op op1 op2).length := by
  cases op <;> rfl

/-! ## The decoder and the encoder -/

/-- All the decoder answers with an instruction. -/
theorem decode_eq_ok_iff (ir op1 op2 : Byte) (i : Instr) :
    decode ir op1 op2 = .ok i ↔ ∃ op, opcodeByte op = ir ∧ routeOperands op op1 op2 = i := by
  simp only [← selectOp_eq_some_iff, decode]
  cases selectOp ir <;> simp

/-- Decoding a byte list that begins with a whole instruction. -/
theorem decodeBytes_of_decode {ir : Byte} {rest : List Byte} {i : Instr}
    (hdec : decode ir (rest.getD 0 0) (rest.getD 1 0) = .ok i)
    (hlen : i.length ≤ (ir :: rest).length) :
    decodeBytes (ir :: rest) = .ok (i, (ir :: rest).drop i.length) := by
  simp only [decodeBytes, hdec, if_pos hlen]

/-- Settles O5: the opcode byte selects the instruction's operation, routing gives it its own operand
cells, and the length taken off is that of its encoding. -/
theorem decodeOfEncodeIsTheInstruction : Obligations.DecodeOfEncodeIsTheInstruction := by
  intro i rest
  have hdec : decode (opcodeByte i.op) ((i.operandCells ++ rest).getD 0 0)
      ((i.operandCells ++ rest).getD 1 0) = .ok i :=
    (decode_eq_ok_iff ..).2 ⟨i.op, rfl, routeOperands_operandCells i rest⟩
  have hlen : i.length ≤ (encode i ++ rest).length := by
    rw [List.length_append, encode_length]
    exact Nat.le_add_right ..
  have hdrop : (encode i ++ rest).drop i.length = rest := List.drop_left' (encode_length i)
  calc decodeBytes (encode i ++ rest)
      = .ok (i, (encode i ++ rest).drop i.length) := decodeBytes_of_decode hdec hlen
    _ = .ok (i, rest) := by rw [hdrop]

/-- Settles O6: a decoded instruction is a routed one, and NOPS gives its length. -/
theorem encodeOfDecodeIsTheCells : Obligations.EncodeOfDecodeIsTheCells := by
  intro ir op1 op2 i h
  obtain ⟨op, rfl, rfl⟩ := (decode_eq_ok_iff ..).1 h
  rw [encode_routeOperands, length_eq_nops, routeOperands_op]

end Sys2Proof
end

section
/-! SUPPORT. LDI (spec/44_general.md R130) and the frame of a fatal condition (R88, R167). -/

namespace Sys2Proof.Machine

theorem raise_fatalFrom (s : State) (f : Fault) : FatalFrom f.cause s (s.raise f) :=
  ⟨raise_run s f, raise_cause s f, raise_pc s f, raise_fl s f, raise_out s f,
    fun r _ => raise_reg s r f, fun a _ => raise_memRead s a f⟩

theorem setReg_sameRegistersExcept (s : State) (r : Reg) (v : Byte) :
    SameRegistersExcept [r] s (s.setReg r v) :=
  fun _ hq => setReg_reg_of_ne s v (List.ne_of_not_mem_cons hq)

theorem exec_ldi_illegal (s : State) {b : Byte} (v : Byte) (h : 7 < b.toNat) :
    exec (.ldi b v) s = .next (s.raise (.invalidRegister b)) := withReg_illegal h s _

/-- Settles O17: on a register's cell the result is one register write and the advance, on another
cell it is the fatal condition. -/
theorem ldiLoadsTheImmediate : Obligations.LdiLoadsTheImmediate :=
  ⟨fun s r v => ⟨_, exec_ldi s r v, setReg_reg_same s r v, setReg_sameRegistersExcept s r v,
      fun _ _ => rfl, ⟨rfl, rfl, rfl⟩, rfl, rfl⟩,
    fun s _ v h => ⟨_, exec_ldi_illegal s v h, raise_fatalFrom s _⟩⟩

end Sys2Proof.Machine
end

section
/-! SUPPORT. The cycle (spec/40_execution_cycle.md): which instruction it runs (R81, R91), where it
leaves pc (R85), and its repetition up to HALTED (R80) and under the host's step budget (R90). -/

namespace Sys2Proof.Machine

/-! ## The instruction a cycle runs (R81, R91) -/

theorem fetchDecode_eq (s : State) :
    s.fetchDecode = decode (s.memRead s.pc) (s.memRead (s.pc + 1)) (s.memRead (s.pc + 2)) := by
  rw [State.fetchDecode, fetchIr_eq, fetchOp1_eq, fetchOp2_eq]

/-- Settles O9: the three cells are those that the fetch reads. -/
theorem stepRunsTheDecodedInstruction : Obligations.StepRunsTheDecodedInstruction :=
  fun s _ hrun hdec => step_decoded hrun ((fetchDecode_eq s).trans hdec)

theorem memRead_pc_of_fetchDecode {s : State} {i : Instr} (h : s.fetchDecode = .ok i) :
    s.memRead s.pc = opcodeByte i.op := by
  obtain ⟨op, hop, rfl⟩ := (decode_eq_ok_iff ..).1 h
  rw [routeOperands_op, hop, fetchIr_eq]

/-! ## The placed instruction -/

/-- The cells of one instruction lie at different addresses, also across the top of memory (D6). -/
theorem cellAddr_inj (s : State) {j k : Nat} (hj : j < 256) (hk : k < 256) :
    s.cellAddr j = s.cellAddr k ↔ j = k := by
  refine ⟨fun h => ?_, congrArg s.cellAddr⟩
  have hnat := congrArg BitVec.toNat (add_left_cancel h)
  rwa [BitVec.toNat_ofNat, BitVec.toNat_ofNat, Nat.mod_eq_of_lt hj, Nat.mod_eq_of_lt hk] at hnat

/-- Each of the three stores survives the later ones, so that a fetch reads all three cells. -/
theorem storeFetchCells_memRead_cellAddr (s : State) (nbits w : Nat) {k : Nat} (hk : k < 3) :
    (s.storeFetchCells nbits w).memRead (s.cellAddr k) = tableWordCell nbits w k := by
  have hk' : k < 256 := by omega
  have hread : (s.storeFetchCells nbits w).memRead (s.cellAddr k) =
      if k = 2 then tableWordCell nbits w 2 else if k = 1 then tableWordCell nbits w 1
      else if k = 0 then tableWordCell nbits w 0 else s.memRead (s.cellAddr k) := by
    simp [State.storeFetchCells, memWrite_memRead, cellAddr_inj, hk']
  rw [hread]
  interval_cases k <;> rfl

/-- `withFetchWord` leaves pc, so that the fetch reads the stored cells. -/
theorem withFetchWord_fetchDecode (s : State) (nbits w : Nat) :
    (s.withFetchWord nbits w).fetchDecode =
      decode (tableWordCell nbits w 0) (tableWordCell nbits w 1) (tableWordCell nbits w 2) := by
  have hcell {k : Nat} (hk : k < 3) : (s.withFetchWord nbits w).memRead
      ((s.withFetchWord nbits w).cellAddr k) = tableWordCell nbits w k :=
    storeFetchCells_memRead_cellAddr s nbits w hk
  rw [State.fetchDecode, State.fetchIr, State.fetchOp1, State.fetchOp2, hcell (by omega),
    hcell (by omega), hcell (by omega)]

theorem decodeTableWord_eq_some_iff (nbits w : Nat) (i : Instr) :
    decodeTableWord nbits w = some i ↔
      decode (tableWordCell nbits w 0) (tableWordCell nbits w 1) (tableWordCell nbits w 2) =
        .ok i := by
  unfold decodeTableWord
  cases decode (tableWordCell nbits w 0) (tableWordCell nbits w 1) (tableWordCell nbits w 2) <;> simp

/-- Settles O47: the fetch reads the placed cells, and RUN is RUNNING. -/
theorem placedWordRunsNext : Obligations.PlacedWordRunsNext := fun s nbits w i hw =>
  step_decoded rfl
    ((withFetchWord_fetchDecode s nbits w).trans ((decodeTableWord_eq_some_iff nbits w i).1 hw))

/-! ## pc after an instruction (R85) -/

theorem bumpSp_pc (s : State) : s.bumpSp.pc = s.pc := by
  obtain ⟨-, h⟩ | ⟨-, h⟩ := bumpSp_cases s
  · rw [h, setSp_pc, emit_pc]
  · rw [h, setSp_pc]

/-- With legal operands an instruction outside CALL and RET advances pc over its operand cells, and
those two load it. -/
theorem exec_wellFormed_pc (i : Instr) (s : State) (hwf : i.wellFormed = true) :
    ∃ t, exec i s = .next t ∧
      ((i.op ≠ .call ∧ i.op ≠ .ret ∧ t.pc = nextSeq s.pc i.operandCells.length) ∨
        (∃ r, i = .call (regCell r) ∧ t.pc = t.reg r) ∨ (i = .ret ∧ t.pc = s.memRead s.sp)) := by
  obtain ⟨r, v, rfl⟩ | ⟨r, rfl⟩ | ⟨r, rfl⟩ | ⟨r, rfl⟩ | rfl | ⟨r, rfl⟩ | rfl | ⟨a, b, rfl⟩ |
    ⟨a, b, rfl⟩ := wellFormed_cases i hwf
  · exact ⟨_, exec_ldi s r v, .inl ⟨nofun, nofun, rfl⟩⟩
  · exact ⟨_, exec_prn s r, .inl ⟨nofun, nofun, rfl⟩⟩
  · exact ⟨_, exec_push s r, .inl ⟨nofun, nofun, congrArg (nextSeq · 1) (push_pc s _)⟩⟩
  · exact ⟨_, exec_pop s r, .inl ⟨nofun, nofun, congrArg (nextSeq · 1) (bumpSp_pc _)⟩⟩
  · exact ⟨_, exec_hlt s, .inl ⟨nofun, nofun, rfl⟩⟩
  · exact ⟨_, exec_call s r, .inr (.inl ⟨r, rfl, rfl⟩)⟩
  · exact ⟨_, exec_ret s, .inr (.inr ⟨rfl, rfl⟩)⟩
  · exact ⟨_, exec_add s a b, .inl ⟨nofun, nofun, rfl⟩⟩
  · exact ⟨_, exec_mul s a b, .inl ⟨nofun, nofun, rfl⟩⟩

/-- Settles O16: the fetched byte is the instruction's opcode byte, so its PCF tells CALL and RET from
the others and its NOPS counts the operand cells. -/
theorem sequencerFollowsThePcSettingFlag : Obligations.SequencerFollowsThePcSettingFlag := by
  intro s i hrun hdec hwf
  have hnops : i.operandCells.length = (opcodeFields (opcodeByte i.op)).nops.toNat :=
    Nat.succ.inj (length_eq_nops i)
  obtain ⟨t, hexec, hpc⟩ := exec_wellFormed_pc i s hwf
  refine ⟨t, (step_decoded hrun hdec).trans hexec, ?_⟩
  rw [memRead_pc_of_fetchDecode hdec, ← hnops]
  have hpcf := pcf_opcodeByte_iff i.op
  obtain ⟨hcall, hret, hadv⟩ | hset := hpc
  · exact ⟨fun _ => hadv, fun h => absurd (hpcf.1 h) (not_or.2 ⟨hcall, hret⟩)⟩
  · have hop : i.op = .call ∨ i.op = .ret := by
      obtain ⟨r, rfl, -⟩ | ⟨rfl, -⟩ := hset
      · exact .inl rfl
      · exact .inr rfl
    exact ⟨fun h => absurd (hpcf.2 hop) (ne_true_of_eq_false h), fun _ => hset⟩

/-! ## Runs (R80, R90) -/

theorem exec_answers_next (i : Instr) (s : State) : ∃ t, exec i s = .next t := by
  cases hwf : i.wellFormed with
  | false =>
    obtain ⟨b, -, hb⟩ := exec_illFormed i s hwf
    exact ⟨_, hb⟩
  | true =>
    obtain ⟨t, ht, -⟩ := exec_wellFormed_pc i s hwf
    exact ⟨t, ht⟩

theorem step_answers_next (s : State) : ∃ t, step s = .next t := by
  obtain ⟨-, h⟩ | ⟨-, i, -, h⟩ | ⟨-, -, h⟩ := step_cases s
  · exact ⟨_, h⟩
  · rw [h]
    exact exec_answers_next i s
  · exact ⟨_, h⟩

theorem core_run_halted {s : State} (h : s.run = .halted) (k : Nat) :
    Host.Core.run Sys2Proof.core k s = .next s := by
  induction k with
  | zero => rfl
  | succ k ih => exact (core_run_step (step_halted h)).trans ih

/-- Settles O10, by induction on the number of steps. -/
theorem haltedMachineNeverChanges : Obligations.HaltedMachineNeverChanges :=
  fun _ h k => core_run_halted h k

theorem hostRun_halted {x : Session} (h : x.machine.run = .halted) (n : Nat) :
    hostRun n x = .next x := by
  cases n with
  | zero => rfl
  | succ n => simp only [hostRun, h]

/-- A host's run, one cycle at a time. -/
theorem hostRun_running {x : Session} {t : State} (hrun : x.machine.run = .running)
    (h : step x.machine = .next t) (n : Nat) : hostRun (n + 1) x = hostRun n ⟨t, true⟩ := by
  simp only [hostRun, hrun, hostCycle, h]

/-- Settles O46, by induction on the budget: in RUNNING both runs take the same step, and from HALTED
on neither changes the machine. -/
theorem hostRunIsThatManySteps : Obligations.HostRunIsThatManySteps := by
  intro n
  induction n with
  | zero => exact fun x => ⟨x, rfl, rfl⟩
  | succ n ih =>
    intro x
    cases hrun : x.machine.run with
    | halted => exact ⟨x, hostRun_halted hrun _, core_run_halted hrun _⟩
    | running =>
      obtain ⟨t, ht⟩ := step_answers_next x.machine
      obtain ⟨y, hhost, hcore⟩ := ih ⟨t, true⟩
      exact ⟨y, (hostRun_running hrun ht n).trans hhost, (core_run_step ht).trans hcore⟩

end Sys2Proof.Machine
end

section
/-! SUPPORT. The stack (spec/41_stack.md): what a push does at SP = 0 and above it (R101), PUSH and
CALL at SP = 0 (R161), and last in, first out (R106). -/

namespace Sys2Proof.Machine

/-! ## A push that finds room (R101) -/

section
variable {s : State} (v : Byte)

theorem push_sameRegistersExcept : SameRegistersExcept [Config.spIndex] s (s.push v) :=
  fun _ hq => push_reg_of_ne s v (List.ne_of_not_mem_cons hq)

variable (h : s.sp ≠ 0)
include h

theorem push_sp_room : (s.push v).sp = s.sp - 1 := push_reg_room v Config.spIndex h

theorem push_sp_toNat_room : (s.push v).sp.toNat + 1 = s.sp.toNat := by
  rw [push_sp_room v h, decrement_toNat h]

theorem push_sameMemoryExcept_room : SameMemoryExcept [s.sp - 1] s (s.push v) := by
  rw [push_room s v h]
  exact memWrite_sameMemoryExcept (s.setSp _) _ v

theorem push_sameStatus_room : SameStatus s (s.push v) := by
  rw [push_room s v h]
  exact ⟨rfl, rfl, rfl⟩

theorem push_out_room : (s.push v).out = s.out := by
  rw [push_room s v h, memWrite_out, setSp_out]

/-- The cells of the stack as it was lie from SP upwards; a push writes below them. -/
theorem push_memRead_from_sp_room {a : Byte} (ha : s.sp.toNat ≤ a.toNat) :
    (s.push v).memRead a = s.memRead a := by
  refine push_sameMemoryExcept_room v h a (mt List.mem_singleton.1 ?_)
  rintro rfl
  have hdec := decrement_toNat h
  omega

end

/-- Settles O20, from the two cases of `push_cases`. -/
theorem pushPrimitiveIsGuardedAtZero : Obligations.PushPrimitiveIsGuardedAtZero := by
  refine fun s v => ⟨fun h => ?_, fun h => ?_⟩
  · rw [push_overflow s v h]
    exact ⟨rfl, rfl, rfl, fun _ _ => rfl, fun _ _ => rfl, rfl, rfl⟩
  · have hsp := push_sp_room v h
    exact ⟨push_sp_toNat_room v h, hsp ▸ push_memRead_pushed v h,
      hsp ▸ push_sameMemoryExcept_room v h, push_sameRegistersExcept v,
      push_sameStatus_room v h, push_out_room v h, push_pc s v⟩

/-- Settles O21: the advance after the push changes pc only. -/
theorem pushStoresTheRegister : Obligations.PushStoresTheRegister := fun s r h =>
  ⟨_, exec_push s r, push_sp_toNat_room (s.reg r) h, push_memRead_pushed _ h,
    push_sameMemoryExcept_room _ h, push_sameRegistersExcept _, push_sameStatus_room _ h,
    push_out_room _ h, congrArg (nextSeq · 1) (push_pc s _)⟩

/-! ## PUSH and CALL at SP = 0 (R161) -/

section
variable (s : State) (r : Reg) (h : s.sp = 0)
include h

theorem exec_push_overflow : exec (.push (regCell r)) s =
    .next (((s.emit .overflowWarning).halt .stackOverflow).advance 1) := by
  rw [exec_push, push_overflow s _ h]

theorem exec_call_overflow : exec (.call (regCell r)) s =
    .next (((s.emit .overflowWarning).halt .stackOverflow).setPc (s.reg r)) := by
  rw [exec_call, push_overflow s _ h, halt_reg, emit_reg]

end

/-- Settles O22: both end as the warning and the halt, with pc written after them. -/
theorem stackOverflowHaltsWithoutAWrite : Obligations.StackOverflowHaltsWithoutAWrite :=
  fun s r h =>
    ⟨⟨_, exec_push_overflow s r h, rfl, rfl, rfl, fun _ _ => rfl, fun _ _ => rfl, rfl, rfl⟩,
      ⟨_, exec_call_overflow s r h, rfl, rfl, rfl, fun _ _ => rfl, fun _ _ => rfl, rfl, rfl⟩⟩

/-! ## Last in, first out (R106) -/

theorem SameStatus.trans {s t u : State} (hst : SameStatus s t) (htu : SameStatus t u) :
    SameStatus s u := by
  obtain ⟨hfl, hrun, hcause⟩ := hst
  obtain ⟨hfl', hrun', hcause'⟩ := htu
  exact ⟨hfl'.trans hfl, hrun'.trans hrun, hcause'.trans hcause⟩

/-- A POP of another register than R7 that does not underflow. -/
theorem exec_pop_room (s : State) {d : Reg} (hd : d ≠ Config.spIndex)
    (h : s.sp.toNat + 1 ≤ 0xF4) :
    exec (.pop (regCell d)) s =
      .next (((s.setReg d (s.memRead s.sp)).setSp (s.sp + 1)).advance 1) := by
  have hsp := setReg_sp_of_ne s (s.memRead s.sp) hd
  rw [exec_pop, bumpSp_room _ (hsp.symm ▸ h), hsp]

theorem execAll_cons_next {i : Instr} {s t : State} (h : exec i s = .next t) (is : List Instr) :
    execAll (i :: is) s = execAll is t := by
  simp only [execAll, h]

/-- One more POP after those of `popValues`. -/
theorem popValues_concat (ds : List Reg) (d : Reg) {s u w : State} {vs : List Byte}
    (hds : popValues ds s = some (vs, u)) (hd : exec (.pop (regCell d)) u = .next w) :
    popValues (ds ++ [d]) s = some (vs ++ [w.reg d], w) := by
  induction ds generalizing s vs with
  | nil =>
    cases hds
    simp [popValues, hd]
  | cons e ds ih =>
    obtain ⟨t, ht⟩ := exec_answers_next (.pop (regCell e)) s
    simp only [popValues, ht, Option.map_eq_some_iff] at hds
    obtain ⟨⟨ws, _⟩, hws, heq⟩ := hds
    cases heq
    simp [popValues, ht, ih hws]

/-- `u` has the stack of `s`, and its events and status: SP and every cell from SP upwards are as in
`s`. It is what pushes and as many pops keep: R106's claim with the cells that the induction
needs. -/
structure StackRestored (s u : State) : Prop where
  sp : u.sp = s.sp
  cells : ∀ a : Byte, s.sp.toNat ≤ a.toNat → u.memRead a = s.memRead a
  out : u.out = s.out
  status : SameStatus s u

/-- A POP that finds the stack a PUSH left gives the pushed value and restores the stack before the
PUSH. -/
theorem StackRestored.pop_of_push {s u : State} {d : Reg} {v : Byte} (h0 : s.sp ≠ 0)
    (htop : s.sp.toNat ≤ 0xF4) (hd : d ≠ Config.spIndex)
    (hu : StackRestored ((s.push v).advance 1) u) :
    ∃ w, exec (.pop (regCell d)) u = .next w ∧ w.reg d = v ∧ StackRestored s w := by
  have hsp : u.sp = s.sp - 1 := hu.sp.trans (push_sp_room v h0)
  have hdec : u.sp.toNat + 1 = s.sp.toNat := by rw [hsp, decrement_toNat h0]
  have hval : u.memRead u.sp = v := by
    rw [hu.cells _ (congrArg BitVec.toNat hu.sp).ge, advance_memRead, hsp,
      push_memRead_pushed v h0]
  refine ⟨_, exec_pop_room u hd (hdec ▸ htop), ?_, ?_, fun a ha => ?_, ?_, ?_⟩
  · rw [advance_reg, setSp_reg, if_neg hd, setReg_reg_same, hval]
  · rw [advance_sp, setSp_sp, hsp, BitVec.sub_add_cancel]
  · have hlow : (s.push v).sp.toNat ≤ a.toNat := (push_sp_le s v).trans ha
    exact (hu.cells a hlow).trans (push_memRead_from_sp_room v h0 ha)
  · exact hu.out.trans (push_out_room v h0)
  · exact (push_sameStatus_room v h0).trans hu.status

/-- R106 by induction on the pushes: the first push and the last pop enclose the others, which
restore the stack that the first push left. -/
theorem pushes_then_pops (rs : List Reg) : ∀ (s : State) (ds : List Reg),
    ds.length = rs.length → Config.spIndex ∉ rs → Config.spIndex ∉ ds →
    rs.length ≤ s.sp.toNat → s.sp.toNat ≤ 0xF4 →
    ∃ t u, execAll (rs.map fun r => .push (regCell r)) s = .next t ∧
      popValues ds t = some ((rs.map s.reg).reverse, u) ∧ StackRestored s u := by
  induction rs with
  | nil =>
    intro s ds hlen _ _ _ _
    obtain rfl := List.eq_nil_of_length_eq_zero hlen
    exact ⟨s, s, rfl, rfl, rfl, fun _ _ => rfl, rfl, rfl, rfl, rfl⟩
  | cons r rs ih =>
    intro s ds hlen hrs hds hroom htop
    obtain rfl | ⟨ds, d, rfl⟩ := List.eq_nil_or_concat' ds
    · cases hlen
    obtain ⟨-, hrs⟩ := List.ne_and_not_mem_of_not_mem_cons hrs
    obtain ⟨hds, hd⟩ : Config.spIndex ∉ ds ∧ Config.spIndex ≠ d := by simpa using hds
    rw [List.length_cons] at hroom
    have h0 : s.sp ≠ 0 := by
      intro h
      rw [h] at hroom
      exact absurd hroom (Nat.not_succ_le_zero _)
    have hsp : ((s.push (s.reg r)).advance 1).sp.toNat + 1 = s.sp.toNat :=
      push_sp_toNat_room (s.reg r) h0
    obtain ⟨t, u, hpush, hpop, hu⟩ := ih ((s.push (s.reg r)).advance 1) ds (by simpa using hlen)
      hrs hds (by omega) (by omega)
    obtain ⟨w, hw, hwd, hrest⟩ := hu.pop_of_push h0 htop hd.symm
    have hregs : rs.map ((s.push (s.reg r)).advance 1).reg = rs.map s.reg :=
      List.map_congr_left fun q hq => push_reg_of_ne s _ (ne_of_mem_of_not_mem hq hrs)
    refine ⟨t, w, ?_, ?_, hrest⟩
    · rw [List.map_cons, execAll_cons_next (exec_push s r), hpush]
    · rw [popValues_concat ds d hpop hw, hregs, hwd, List.map_cons, List.reverse_cons]

/-- Settles O25: a restored stack keeps SP, OUT and the status. -/
theorem lastInFirstOut : Obligations.LastInFirstOut := by
  intro s rs ds hlen hrs hds hroom htop
  obtain ⟨t, u, hpush, hpop, hu⟩ := pushes_then_pops rs s ds hlen hrs hds hroom htop
  exact ⟨t, u, hpush, hpop, hu.sp, hu.out, hu.status⟩

end Sys2Proof.Machine
end

section
/-! SUPPORT. What an instruction reads of memory (spec/20_memory.md R53, spec/42_alu.md R110): the
machine on another memory does the same outside MEM, if POP and RET find the same cell at SP. -/

namespace Sys2Proof.Machine

/-- The state with all of MEM replaced. -/
def State.setMem (s : State) (m : Memory) : State := { s with mem := m }

/-! ## Replacing memory commutes with what does not read it

The replacement moves outwards. A push writes its own cell into the new memory, so the replacement
that remains outside it is another one. -/

section
variable (s : State) (m : Memory) (r : Reg) (v : Byte)

theorem memWrite_eq_setMem (a : Byte) : s.memWrite a v = s.setMem (s.mem.write a v) := rfl

theorem setMem_setMem (m' : Memory) : (s.setMem m).setMem m' = s.setMem m' := rfl
theorem setMem_memWrite (a : Byte) : (s.setMem m).memWrite a v = s.setMem (m.write a v) := rfl
theorem setMem_memRead (a : Byte) : (s.setMem m).memRead a = m.read a := rfl
theorem setMem_pc : (s.setMem m).pc = s.pc := rfl
theorem setMem_reg : (s.setMem m).reg r = s.reg r := rfl
theorem setMem_sp : (s.setMem m).sp = s.sp := rfl
theorem setMem_setReg : (s.setMem m).setReg r v = (s.setReg r v).setMem m := rfl
theorem setMem_setSp : (s.setMem m).setSp v = (s.setSp v).setMem m := rfl
theorem setMem_setPc : (s.setMem m).setPc v = (s.setPc v).setMem m := rfl
theorem setMem_advance (n : Nat) : (s.setMem m).advance n = (s.advance n).setMem m := rfl
theorem setMem_emit (e : Event) : (s.setMem m).emit e = (s.emit e).setMem m := rfl
theorem setMem_halt (c : Cause) : (s.setMem m).halt c = (s.halt c).setMem m := rfl
theorem setMem_raise (f : Fault) : (s.setMem m).raise f = (s.raise f).setMem m := rfl

theorem setMem_push : ∃ m', (s.setMem m).push v = (s.push v).setMem m' := by
  obtain ⟨h0, h⟩ | ⟨h0, h⟩ := push_cases s v
  · exact ⟨m, by rw [push_overflow (s.setMem m) v h0, h, setMem_emit, setMem_halt]⟩
  · exact ⟨m.write (s.sp - 1) v, by rw [push_room (s.setMem m) v h0, h, setMem_sp, setMem_setSp,
      setMem_memWrite, memWrite_eq_setMem, setMem_setMem]⟩

theorem setMem_bumpSp : (s.setMem m).bumpSp = s.bumpSp.setMem m := by
  obtain ⟨h0, h⟩ | ⟨h0, h⟩ := bumpSp_cases s
  · rw [bumpSp_underflow (s.setMem m) h0, h, setMem_emit, setMem_setSp]
  · rw [bumpSp_room (s.setMem m) h0, h, setMem_sp, setMem_setSp]

end

/-! ## The memory an instruction reads -/

/-- R53, what is read: on a memory with the same cell at SP, or on any memory for an instruction
outside POP and RET, the result differs in MEM only. -/
theorem exec_setMem (i : Instr) (s t : State) (m : Memory) (h : exec i s = .next t)
    (hcell : (∃ d, i = .pop d) ∨ i = .ret → m.read s.sp = s.memRead s.sp) :
    ∃ m', exec i (s.setMem m) = .next (t.setMem m') := by
  cases hwf : i.wellFormed with
  | false =>
    obtain ⟨b, hf, hb⟩ := exec_illFormed i s hwf
    obtain ⟨c, hf', hc⟩ := exec_illFormed i (s.setMem m) hwf
    cases hf.symm.trans hf'
    cases hb.symm.trans h
    exact ⟨m, by rw [hc, setMem_raise]⟩
  | true =>
    obtain ⟨r, v, rfl⟩ | ⟨r, rfl⟩ | ⟨r, rfl⟩ | ⟨r, rfl⟩ | rfl | ⟨r, rfl⟩ | rfl | ⟨a, b, rfl⟩ |
      ⟨a, b, rfl⟩ := wellFormed_cases i hwf
    · cases (exec_ldi s r v).symm.trans h
      exact ⟨m, by rw [exec_ldi, setMem_setReg, setMem_advance]⟩
    · cases (exec_prn s r).symm.trans h
      exact ⟨m, by rw [exec_prn, setMem_reg, setMem_emit, setMem_advance]⟩
    · cases (exec_push s r).symm.trans h
      obtain ⟨m', hm'⟩ := setMem_push s m (s.reg r)
      exact ⟨m', by rw [exec_push, setMem_reg, hm', setMem_advance]⟩
    · cases (exec_pop s r).symm.trans h
      have hread : m.read s.sp = s.memRead s.sp := hcell (.inl ⟨_, rfl⟩)
      exact ⟨m, by rw [exec_pop, setMem_sp, setMem_memRead, hread, setMem_setReg, setMem_bumpSp,
        setMem_advance]⟩
    · cases (exec_hlt s).symm.trans h
      exact ⟨m, by rw [exec_hlt, setMem_halt, setMem_advance]⟩
    · cases (exec_call s r).symm.trans h
      obtain ⟨m', hm'⟩ := setMem_push s m (nextSeq s.pc 1)
      exact ⟨m', by rw [exec_call, setMem_pc, hm', setMem_reg, setMem_setPc]⟩
    · cases (exec_ret s).symm.trans h
      have hread : m.read s.sp = s.memRead s.sp := hcell (.inr rfl)
      exact ⟨m, by rw [exec_ret, setMem_sp, setMem_memRead, hread, setMem_setPc]⟩
    · cases (exec_add s a b).symm.trans h
      exact ⟨m, by rw [exec_add, setMem_reg, setMem_reg, setMem_setReg, setMem_advance]⟩
    · cases (exec_mul s a b).symm.trans h
      exact ⟨m, by rw [exec_mul, setMem_reg, setMem_reg, setMem_setReg, setMem_advance]⟩

/-- Settles O35: a write to another cell leaves the cell at SP, which POP and RET read. -/
theorem onlyTheStackCellIsRead : Obligations.OnlyTheStackCellIsRead := by
  intro i s t a v h ha
  obtain ⟨_, hm'⟩ := exec_setMem i s t (s.mem.write a v) h fun hi =>
    (memWrite_memRead s a v s.sp).trans (if_neg (ha hi).symm)
  rw [memWrite_eq_setMem]
  exact ⟨_, hm', rfl, rfl, ⟨rfl, rfl, rfl⟩, rfl⟩

end Sys2Proof.Machine
end

section
/-! SUPPORT. What a cycle sends to the diagnostic sink (spec/50_blocks_and_interfaces.md R151): the
events of a push and of the increment after a pop, then those of an instruction. -/

namespace Sys2Proof.Machine

theorem push_out (s : State) (v : Byte) :
    (s.push v).out = s.out ++ if s.sp = 0 then [.overflowWarning] else [] := by
  by_cases h : s.sp = 0
  · rw [push_overflow s v h, if_pos h, halt_out, emit_out]
  · rw [push_out_room v h, if_neg h, List.append_nil]

theorem bumpSp_out (s : State) :
    s.bumpSp.out = s.out ++ if s.sp.toNat + 1 > 0xF4 then [.underflowWarning] else [] := by
  obtain ⟨h, hbump⟩ | ⟨h, hbump⟩ := bumpSp_cases s
  · rw [hbump, if_pos h, setSp_out, emit_out]
  · rw [hbump, if_neg h.not_gt, setSp_out, List.append_nil]

theorem eventsOf_prn (s : State) (r : Reg) : eventsOf (.prn (regCell r)) s = [.print (s.reg r)] := by
  simp [eventsOf, Except.toOption]

/-- Among the register cells 7 is the one of SP. -/
theorem regCell_eq_seven_iff (r : Reg) : regCell r = 7 ↔ r = Config.spIndex := by
  revert r
  decide

/-- POP warns by SP as it is once the destination is loaded: for R7 that is the loaded cell (D13). -/
theorem eventsOf_pop (s : State) (r : Reg) : eventsOf (.pop (regCell r)) s =
    if (s.setReg r (s.memRead s.sp)).sp.toNat + 1 > 0xF4 then [.underflowWarning] else [] := by
  simp only [eventsOf, setReg_sp, regCell_eq_seven_iff]

/-- R151: with legal operands an instruction appends its row of the table to OUT. -/
theorem exec_wellFormed_out (i : Instr) (s : State) (hwf : i.wellFormed = true) :
    ∃ t, exec i s = .next t ∧ t.out = s.out ++ eventsOf i s := by
  have hnone : s.out = s.out ++ [] := (List.append_nil _).symm
  obtain ⟨r, v, rfl⟩ | ⟨r, rfl⟩ | ⟨r, rfl⟩ | ⟨r, rfl⟩ | rfl | ⟨r, rfl⟩ | rfl | ⟨a, b, rfl⟩ |
    ⟨a, b, rfl⟩ := wellFormed_cases i hwf
  · exact ⟨_, exec_ldi s r v, hnone⟩
  · exact ⟨_, exec_prn s r, by rw [advance_out, emit_out, eventsOf_prn]⟩
  · exact ⟨_, exec_push s r, push_out s _⟩
  · exact ⟨_, exec_pop s r, by rw [advance_out, bumpSp_out, setReg_out, eventsOf_pop]⟩
  · exact ⟨_, exec_hlt s, hnone⟩
  · exact ⟨_, exec_call s r, push_out s _⟩
  · exact ⟨_, exec_ret s, hnone⟩
  · exact ⟨_, exec_add s a b, hnone⟩
  · exact ⟨_, exec_mul s a b, hnone⟩

/-- Settles O38: the step runs the decoded instruction, whose events are its row of R151. -/
theorem cycleSendsItsEvents : Obligations.CycleSendsItsEvents := by
  intro s i hrun hdec hwf
  rw [step_decoded hrun hdec]
  exact exec_wellFormed_out i s hwf

end Sys2Proof.Machine
end

section
/-! SUPPORT. The fatal conditions (spec/60_exceptions.md R160, R166): what the report names, that the
cycle takes it, and the CAUSE that a cycle without a report ends with. -/

namespace Sys2Proof.Machine

/-! ## The first illegal operand cell (R166) -/

theorem registerCellLegal_eq_false_iff (b : Byte) : registerCellLegal b = false ↔ 7 < b.toNat := by
  rw [registerCellLegal, decide_eq_false_iff_not, Nat.not_lt]
  rfl

theorem operandFault_eq_none_iff (i : Instr) : operandFault i = none ↔ i.wellFormed = true := by
  simp [operandFault, Instr.wellFormed]

section
variable {i : Instr} {a b : Byte} {cells : List Byte}

theorem operandFault_first (hi : i.registerCells = a :: cells) (ha : 7 < a.toNat) :
    operandFault i = some (.invalidRegister a) := by
  simp [operandFault, hi, (registerCellLegal_eq_false_iff a).2 ha]

theorem operandFault_second (hi : i.registerCells = a :: b :: cells) (ha : a.toNat ≤ 7)
    (hb : 7 < b.toNat) : operandFault i = some (.invalidRegister b) := by
  have hlegal : registerCellLegal a = true := decide_eq_true (Nat.lt_succ_of_le ha)
  simp [operandFault, hi, hlegal, (registerCellLegal_eq_false_iff b).2 hb]

end

/-- The operand fault of an instruction is the fatal condition that its execution raises. -/
theorem exec_operandFault {i : Instr} {f : Fault} (h : operandFault i = some f) (s : State) :
    exec i s = .next (s.raise f) := by
  have hwf : i.wellFormed = false := by
    rw [← Bool.not_eq_true, ← operandFault_eq_none_iff, h]
    exact Option.some_ne_none f
  obtain ⟨b, hb, hexec⟩ := exec_illFormed i s hwf
  cases hb.symm.trans h
  exact hexec

/-! ## The report of a cycle (R160) -/

theorem fatalReport_decoded {s : State} {i : Instr} (hrun : s.run = .running)
    (hdec : s.fetchDecode = .ok i) : fatalReport s = operandFault i := by
  simp only [fatalReport, hrun, hdec]

theorem fatalReport_undecoded {s : State} {e : DecodeError} (hrun : s.run = .running)
    (hdec : s.fetchDecode = .error e) :
    fatalReport s = some (.unsupportedOperation s.fetchIr) := by
  simp only [fatalReport, hrun, hdec]

theorem fatalReport_halted {s : State} (hrun : s.run = .halted) : fatalReport s = none := by
  simp only [fatalReport, hrun]

/-- The step takes the reported condition. -/
theorem step_fatalReport {s : State} {f : Fault} (h : fatalReport s = some f) :
    step s = .next (s.raise f) := by
  obtain ⟨hrun, -⟩ | ⟨hrun, i, hdec, hstep⟩ | ⟨hrun, ⟨e, hdec⟩, hstep⟩ := step_cases s
  · cases (fatalReport_halted hrun).symm.trans h
  · exact hstep.trans (exec_operandFault ((fatalReport_decoded hrun hdec).symm.trans h) s)
  · cases (fatalReport_undecoded hrun hdec).symm.trans h
    exact hstep

/-- A cycle without a report runs a well-formed instruction. -/
theorem exists_wellFormed_of_fatalReport_eq_none {s : State} (hrun : s.run = .running)
    (h : fatalReport s = none) : ∃ i, i.wellFormed = true ∧ step s = exec i s := by
  cases hdec : s.fetchDecode with
  | ok i =>
    rw [fatalReport_decoded hrun hdec, operandFault_eq_none_iff] at h
    exact ⟨i, h, step_decoded hrun hdec⟩
  | error e => cases (fatalReport_undecoded hrun hdec).symm.trans h

/-! ## CAUSE after an instruction with legal operands (R160, R161) -/

theorem push_cause (s : State) (v : Byte) :
    (s.push v).cause = if s.sp = 0 then .stackOverflow else s.cause := by
  by_cases h : s.sp = 0
  · rw [push_overflow s v h, if_pos h, halt_cause]
  · rw [push_room s v h, if_neg h, memWrite_cause, setSp_cause]

theorem bumpSp_cause (s : State) : s.bumpSp.cause = s.cause := by
  obtain ⟨-, h⟩ | ⟨-, h⟩ := bumpSp_cases s
  · rw [h, setSp_cause, emit_cause]
  · rw [h, setSp_cause]

/-- With legal operands only HLT, and PUSH and CALL at SP = 0, write CAUSE. -/
theorem exec_wellFormed_cause (i : Instr) (s : State) (hwf : i.wellFormed = true) :
    ∃ t, exec i s = .next t ∧ t.cause =
      if i.op = .hlt then .haltInstruction
      else if (i.op = .push ∨ i.op = .call) ∧ s.sp = 0 then .stackOverflow else s.cause := by
  obtain ⟨r, v, rfl⟩ | ⟨r, rfl⟩ | ⟨r, rfl⟩ | ⟨r, rfl⟩ | rfl | ⟨r, rfl⟩ | rfl | ⟨a, b, rfl⟩ |
    ⟨a, b, rfl⟩ := wellFormed_cases i hwf
  · exact ⟨_, exec_ldi s r v, by simp [Instr.op]⟩
  · exact ⟨_, exec_prn s r, by simp [Instr.op]⟩
  · exact ⟨_, exec_push s r, by simp [Instr.op, push_cause]⟩
  · exact ⟨_, exec_pop s r, by simp [Instr.op, bumpSp_cause]⟩
  · exact ⟨_, exec_hlt s, by simp [Instr.op]⟩
  · exact ⟨_, exec_call s r, by simp [Instr.op, push_cause]⟩
  · exact ⟨_, exec_ret s, by simp [Instr.op]⟩
  · exact ⟨_, exec_add s a b, by simp [Instr.op]⟩
  · exact ⟨_, exec_mul s a b, by simp [Instr.op]⟩

/-- From CAUSE None, no instruction with legal operands records a fatal condition. -/
theorem exec_wellFormed_not_fatal (i : Instr) (s : State) (hwf : i.wellFormed = true)
    (hcause : s.cause = .none) : ∃ t, exec i s = .next t ∧
      t.cause ≠ .unsupportedOperation ∧ t.cause ≠ .invalidRegister := by
  obtain ⟨t, hexec, ht⟩ := exec_wellFormed_cause i s hwf
  refine ⟨t, hexec, ?_⟩
  rw [ht, hcause]
  split_ifs <;> exact ⟨nofun, nofun⟩

/-- Settles O14: the step raises what is reported; a step without a report runs an instruction with
legal operands; and the report of an ADD or a MUL is its first illegal operand cell. -/
theorem reportedFatalConditionIsTaken : Obligations.ReportedFatalConditionIsTaken := by
  intro s hrun
  refine ⟨fun f hf => ⟨_, step_fatalReport hf, raise_fatalFrom s f⟩, fun hnone hcause => ?_,
    fun a b ha hdec => ?_, fun a b ha hb hdec => ?_⟩
  · obtain ⟨i, hwf, hstep⟩ := exists_wellFormed_of_fatalReport_eq_none hrun hnone
    rw [hstep]
    exact exec_wellFormed_not_fatal i s hwf hcause
  · obtain hdec | hdec := hdec <;>
      exact (fatalReport_decoded hrun hdec).trans (operandFault_first rfl ha)
  · obtain hdec | hdec := hdec <;>
      exact (fatalReport_decoded hrun hdec).trans (operandFault_second rfl ha hb)

end Sys2Proof.Machine
end

section
/-! SUPPORT. What the loader leaves in memory and of the rest of the state, and the start of a run
(spec/70_reset_and_hazards.md R181, spec/50_blocks_and_interfaces.md R149). -/

namespace Sys2Proof.Machine

/-! ## The loader's writes -/

/-- The loader writes memory only (R149). -/
theorem placeWords_eq_setMem (s : State) (a : Byte) (ws : List Byte) :
    ∃ m, s.placeWords a ws = s.setMem m := by
  induction ws generalizing s a with
  | nil => exact ⟨s.mem, rfl⟩
  | cons w ws ih =>
    obtain ⟨m, hm⟩ := ih (s.memWrite a w) (a + 1)
    exact ⟨m, hm⟩

/-- The word at a cell's distance above `a`, and past the program's length what the cell held: 256
words never come round to the first cell again. -/
theorem placeWords_memRead (s : State) (a b : Byte) (ws : List Byte) (hlen : ws.length ≤ 256) :
    (s.placeWords a ws).memRead b = ws.getD (b - a).toNat (s.memRead b) := by
  induction ws generalizing s a with
  | nil => rfl
  | cons w ws ih =>
    have hws : ws.length < 256 := hlen
    have htail : (s.placeWords a (w :: ws)).memRead b =
        ws.getD (b - (a + 1)).toNat (if b = a then w else s.memRead b) := by
      rw [State.placeWords, ih _ _ hws.le, memWrite_memRead]
    rw [htail]
    by_cases hb : b = a
    · have hlast : (b - (a + 1)).toNat = 255 := by bv_omega
      rw [hlast, List.getD_eq_default _ _ (Nat.le_of_lt_succ hws), if_pos hb, hb, sub_self]
      rfl
    · have hnext : (b - a).toNat = (b - (a + 1)).toNat + 1 := by bv_omega
      rw [hnext, List.getD_cons_succ, if_neg hb]

/-- Word `k` of a program is what its cell reads as once the program is placed from address 0. -/
theorem placeWords_memRead_word (s : State) {ws : List Byte} (hlen : ws.length ≤ 256) {b w : Byte}
    (hw : ws[b.toNat]? = some w) : (s.placeWords 0 ws).memRead b = w := by
  rw [placeWords_memRead s 0 b ws hlen, sub_zero, List.getD_eq_getElem?_getD, hw,
    Option.getD_some]

/-! ## Reset, then load -/

theorem loadProgram_fits (s : State) {ws : List Byte} (hlen : ws.length ≤ 256) :
    s.loadProgram ws = .next (s.placeWords 0 ws) := if_pos hlen

theorem hostLoad_hostReset (memInit : Byte → Byte) {ws : List Byte} (hlen : ws.length ≤ 256) :
    hostLoad ws (hostReset memInit) =
      .next ⟨(State.resetWith memInit).placeWords 0 ws, false⟩ := by
  simp [hostLoad, hostReset, loadProgram_fits _ hlen]

/-- Settles O45: the load leaves RUN and pc of the reset, and the fetch from address 0 reads the
placed words. -/
theorem runStartsAtTheFirstWord : Obligations.RunStartsAtTheFirstWord := by
  intro memInit ws hlen
  obtain ⟨m, hm⟩ := placeWords_eq_setMem (State.resetWith memInit) 0 ws
  have hrun : ((State.resetWith memInit).placeWords 0 ws).run = .running := by rw [hm]; rfl
  have hpc : ((State.resetWith memInit).placeWords 0 ws).pc = 0 := by rw [hm]; rfl
  refine ⟨_, hostLoad_hostReset memInit hlen, rfl, hrun, hpc, fun w hw => ?_, fun w hw => ?_,
    fun w hw => ?_⟩
  · rw [fetchIr_eq, hpc]
    exact placeWords_memRead_word _ hlen hw
  · rw [fetchOp1_eq, hpc]
    exact placeWords_memRead_word _ hlen hw
  · rw [fetchOp2_eq, hpc]
    exact placeWords_memRead_word _ hlen hw

end Sys2Proof.Machine
end

section
/-! SUPPORT. What FL, CAUSE and OUT have to do with a cycle (spec/10_state.md R29, R31,
spec/50_blocks_and_interfaces.md R151): it reads none of the three, leaves FL, writes CAUSE or
leaves it, and appends to OUT. -/

namespace Sys2Proof.Machine

/-- The state with FL, CAUSE and OUT, which no cycle reads, replaced. -/
def State.withUnread (s : State) (fl : Byte) (c : Cause) (o : List Event) : State :=
  { s with fl := fl, cause := c, out := o }

/-- From `s` the operation has one effect whatever FL, CAUSE and OUT hold: it ends in one state `t`
outside the three, leaves FL, writes `written` to CAUSE if that is a cause, and appends `es` to
OUT. -/
def BlindFrom (op : State → State) (s : State) : Prop :=
  ∃ (t : State) (written : Option Cause) (es : List Event), ∀ fl c o,
    op (s.withUnread fl c o) = t.withUnread fl (written.getD c) (o ++ es)

/-! ## Operations of the state -/

section
variable {op op' : State → State} {s : State}

theorem BlindFrom.congr (h : BlindFrom op s)
    (heq : ∀ fl c o, op' (s.withUnread fl c o) = op (s.withUnread fl c o)) : BlindFrom op' s := by
  obtain ⟨t, w, es, ht⟩ := h
  exact ⟨t, w, es, fun fl c o => (heq fl c o).trans (ht fl c o)⟩

/-- Of two operations the later write to CAUSE stays, and OUT takes the events of both. -/
theorem BlindFrom.comp (h : BlindFrom op s) (h' : ∀ u, BlindFrom op' u) :
    BlindFrom (fun u => op' (op u)) s := by
  obtain ⟨t, w, es, ht⟩ := h
  obtain ⟨t', w', es', ht'⟩ := h' t
  refine ⟨t', w'.or w, es ++ es', fun fl c o => ?_⟩
  have hcause : w'.getD (w.getD c) = (w'.or w).getD c := by cases w' <;> rfl
  calc op' (op (s.withUnread fl c o))
      = t'.withUnread fl (w'.getD (w.getD c)) (o ++ es ++ es') := by rw [ht, ht']
    _ = t'.withUnread fl ((w'.or w).getD c) (o ++ (es ++ es')) := by
      rw [hcause, List.append_assoc]

/-- An operation that leaves all three. -/
theorem blindFrom_of_leaves
    (h : ∀ fl c o, op (s.withUnread fl c o) = (op s).withUnread fl c o) : BlindFrom op s :=
  ⟨op s, none, [], fun fl c o => by rw [List.append_nil]; exact h fl c o⟩

end

section
variable (s : State)

theorem setReg_blindFrom (r : Reg) (v : Byte) : BlindFrom (·.setReg r v) s :=
  blindFrom_of_leaves fun _ _ _ => rfl

theorem advance_blindFrom (n : Nat) : BlindFrom (·.advance n) s :=
  blindFrom_of_leaves fun _ _ _ => rfl

theorem emit_blindFrom (e : Event) : BlindFrom (·.emit e) s := ⟨s, none, [e], fun _ _ _ => rfl⟩

theorem halt_blindFrom (c : Cause) : BlindFrom (·.halt c) s :=
  ⟨s.halt c, some c, [], fun _ _ o => by rw [List.append_nil]; rfl⟩

theorem push_blindFrom (v : Byte) : BlindFrom (·.push v) s := by
  by_cases h : s.sp = 0
  · exact ((emit_blindFrom s .overflowWarning).comp (halt_blindFrom · .stackOverflow)).congr
      fun _ _ _ => push_overflow _ v h
  · refine BlindFrom.congr (op := fun u => (u.setSp (s.sp - 1)).memWrite (s.sp - 1) v) ?_
      fun _ _ _ => push_room _ v h
    exact blindFrom_of_leaves fun _ _ _ => rfl

theorem bumpSp_blindFrom : BlindFrom State.bumpSp s := by
  obtain ⟨h, -⟩ | ⟨h, -⟩ := bumpSp_cases s
  · exact ((emit_blindFrom s .underflowWarning).comp (setReg_blindFrom · Config.spIndex 0xF4)).congr
      fun _ _ _ => bumpSp_underflow _ h
  · exact (setReg_blindFrom s Config.spIndex (s.sp + 1)).congr fun _ _ _ => bumpSp_room _ h

end

/-! ## Instructions and steps -/

theorem exec_blindFrom (i : Instr) (s : State) :
    ∃ op, (∀ u, exec i u = .next (op u)) ∧ BlindFrom op s := by
  cases hwf : i.wellFormed with
  | false =>
    obtain ⟨b, hb, -⟩ := exec_illFormed i s hwf
    exact ⟨_, exec_operandFault hb, halt_blindFrom s .invalidRegister⟩
  | true =>
    obtain ⟨r, v, rfl⟩ | ⟨r, rfl⟩ | ⟨r, rfl⟩ | ⟨r, rfl⟩ | rfl | ⟨r, rfl⟩ | rfl | ⟨a, b, rfl⟩ |
      ⟨a, b, rfl⟩ := wellFormed_cases i hwf
    · exact ⟨_, fun u => exec_ldi u r v, blindFrom_of_leaves fun _ _ _ => rfl⟩
    · exact ⟨_, fun u => exec_prn u r, (emit_blindFrom s (.print (s.reg r))).comp
        (advance_blindFrom · 1)⟩
    · exact ⟨_, fun u => exec_push u r, (push_blindFrom s (s.reg r)).comp (advance_blindFrom · 1)⟩
    · exact ⟨_, fun u => exec_pop u r, ((setReg_blindFrom s r (s.memRead s.sp)).comp
        bumpSp_blindFrom).comp (advance_blindFrom · 1)⟩
    · exact ⟨_, exec_hlt, (halt_blindFrom s .haltInstruction).comp (advance_blindFrom · 0)⟩
    · exact ⟨_, fun u => exec_call u r, (push_blindFrom s (nextSeq s.pc 1)).comp fun u =>
        blindFrom_of_leaves (op := fun u => u.setPc (u.reg r)) fun _ _ _ => rfl⟩
    · exact ⟨_, exec_ret, blindFrom_of_leaves fun _ _ _ => rfl⟩
    · exact ⟨_, fun u => exec_add u a b, blindFrom_of_leaves fun _ _ _ => rfl⟩
    · exact ⟨_, fun u => exec_mul u a b, blindFrom_of_leaves fun _ _ _ => rfl⟩

/-- The fetch and RUN do not read the three either. -/
theorem step_blindFrom (s : State) :
    ∃ op, (∀ fl c o, step (s.withUnread fl c o) = .next (op (s.withUnread fl c o))) ∧
      BlindFrom op s := by
  obtain ⟨hrun, -⟩ | ⟨hrun, i, hdec, -⟩ | ⟨hrun, ⟨e, hdec⟩, -⟩ := step_cases s
  · exact ⟨id, fun fl c o => step_halted (s := s.withUnread fl c o) hrun,
      blindFrom_of_leaves fun _ _ _ => rfl⟩
  · obtain ⟨op, hexec, hop⟩ := exec_blindFrom i s
    exact ⟨op, fun fl c o => (step_decoded (s := s.withUnread fl c o) hrun hdec).trans (hexec _),
      hop⟩
  · exact ⟨_, fun fl c o => step_undecoded (s := s.withUnread fl c o) hrun hdec,
      halt_blindFrom s .unsupportedOperation⟩

/-- The step from `s` and the steps from all the states that differ in FL, CAUSE and OUT. -/
theorem step_withUnread (s : State) : ∃ (t : State) (written : Option Cause) (es : List Event),
    ∀ fl c o, step (s.withUnread fl c o) = .next (t.withUnread fl (written.getD c) (o ++ es)) := by
  obtain ⟨op, hstep, t, w, es, ht⟩ := step_blindFrom s
  exact ⟨t, w, es, fun fl c o => (hstep fl c o).trans (congrArg _ (ht fl c o))⟩

/-- Settles O36: the step from `s` is the one that leaves FL as `s` has it. -/
theorem flagsAreNeitherReadNorWritten : Obligations.FlagsAreNeitherReadNorWritten := by
  intro s t v h
  obtain ⟨u, w, es, hstep⟩ := step_withUnread s
  cases (hstep s.fl s.cause s.out).symm.trans h
  exact ⟨rfl, hstep v s.cause s.out⟩

/-- Settles O37: both steps append the same events and agree outside CAUSE and OUT. -/
theorem causeAndOutputAreNotRead : Obligations.CauseAndOutputAreNotRead := by
  intro s t c o h
  obtain ⟨u, w, es, hstep⟩ := step_withUnread s
  cases (hstep s.fl s.cause s.out).symm.trans h
  exact ⟨_, es, hstep s.fl c o, rfl, rfl, rfl, rfl, rfl, rfl, rfl⟩

end Sys2Proof.Machine
end

section
/-! SUPPORT. What every cycle keeps of a legal state (spec/10_state.md section 4), and the one cell
that it can change (spec/20_memory.md R53): first all that an instruction can do to MEM, RUN and
CAUSE. -/

namespace Sys2Proof.Machine

/-! ## MEM, RUN and CAUSE after an instruction -/

/-- All that an instruction `i` can do to MEM, RUN and CAUSE. -/
inductive Effect (i : Instr) (s t : State) : Prop
  /-- It leaves the three. -/
  | leaves (mem : t.mem = s.mem) (run : t.run = s.run) (cause : t.cause = s.cause)
  /-- It halts with a cause and writes no cell. -/
  | halts (mem : t.mem = s.mem) (run : t.run = .halted) (cause : t.cause ≠ .none)
  /-- It is a PUSH or CALL that finds room, and writes the cell below SP. -/
  | pushes (c v : Byte) (instr : i = .push c ∨ i = .call c) (room : s.sp ≠ 0)
      (mem : t.mem = s.mem.write (s.sp - 1) v) (run : t.run = s.run) (cause : t.cause = s.cause)

/-- PUSH and CALL end as their push does, but for pc. -/
theorem effect_of_push {i : Instr} {s t : State} {c v : Byte} (hi : i = .push c ∨ i = .call c)
    (hmem : t.mem = (s.push v).mem) (hrun : t.run = (s.push v).run)
    (hcause : t.cause = (s.push v).cause) : Effect i s t := by
  obtain ⟨-, h⟩ | ⟨h0, h⟩ := push_cases s v <;> rw [h] at hmem hrun hcause
  · exact .halts hmem hrun (hcause ▸ nofun)
  · exact .pushes c v hi h0 hmem hrun hcause

theorem bumpSp_mem (s : State) : s.bumpSp.mem = s.mem := by
  obtain ⟨-, h⟩ | ⟨-, h⟩ := bumpSp_cases s <;> rw [h] <;> rfl

theorem bumpSp_run (s : State) : s.bumpSp.run = s.run := by
  obtain ⟨-, h⟩ | ⟨-, h⟩ := bumpSp_cases s <;> rw [h] <;> rfl

theorem exec_effect {i : Instr} {s t : State} (h : exec i s = .next t) : Effect i s t := by
  cases hwf : i.wellFormed with
  | false =>
    obtain ⟨b, -, hb⟩ := exec_illFormed i s hwf
    cases hb.symm.trans h
    exact .halts rfl rfl nofun
  | true =>
    obtain ⟨r, v, rfl⟩ | ⟨r, rfl⟩ | ⟨r, rfl⟩ | ⟨r, rfl⟩ | rfl | ⟨r, rfl⟩ | rfl | ⟨a, b, rfl⟩ |
      ⟨a, b, rfl⟩ := wellFormed_cases i hwf
    · cases (exec_ldi s r v).symm.trans h
      exact .leaves rfl rfl rfl
    · cases (exec_prn s r).symm.trans h
      exact .leaves rfl rfl rfl
    · cases (exec_push s r).symm.trans h
      exact effect_of_push (.inl rfl) rfl rfl rfl
    · cases (exec_pop s r).symm.trans h
      exact .leaves (bumpSp_mem _) (bumpSp_run _) (bumpSp_cause _)
    · cases (exec_hlt s).symm.trans h
      exact .halts rfl rfl nofun
    · cases (exec_call s r).symm.trans h
      exact effect_of_push (.inr rfl) rfl rfl rfl
    · cases (exec_ret s).symm.trans h
      exact .leaves rfl rfl rfl
    · cases (exec_add s a b).symm.trans h
      exact .leaves rfl rfl rfl
    · cases (exec_mul s a b).symm.trans h
      exact .leaves rfl rfl rfl

/-- Settles O34: of the three effects one writes a cell, and a write changes no other. -/
theorem onlyThePushedCellChanges : Obligations.OnlyThePushedCellChanges := by
  intro i s t a h ha
  cases exec_effect h with
  | leaves hmem => exact absurd (congrArg (Memory.read · a) hmem) ha
  | halts hmem => exact absurd (congrArg (Memory.read · a) hmem) ha
  | pushes c v hi hroom hmem =>
    refine ⟨⟨c, hi⟩, hroom, ?_⟩
    by_contra hne
    have hread : t.memRead a = s.memRead a := by
      rw [State.memRead, hmem, Memory.read_write, if_neg hne, State.memRead]
    exact ha hread

/-! ## What every step keeps -/

/-- A property that instructions and fatal conditions keep, every step keeps. -/
theorem step_keeps {P : State → Prop} (hexec : ∀ i s t, exec i s = .next t → P s → P t)
    (hraise : ∀ s f, P s → P (s.raise f)) {s t : State} (h : step s = .next t) (hs : P s) :
    P t := by
  obtain ⟨-, hstep⟩ | ⟨-, i, -, hstep⟩ | ⟨-, -, hstep⟩ := step_cases s
  · cases hstep.symm.trans h
    exact hs
  · exact hexec i s t (hstep.symm.trans h) hs
  · cases hstep.symm.trans h
    exact hraise s _ hs

theorem step_keeps_canonical_memory {s t : State} (h : step s = .next t) (hs : s.mem.wf = true) :
    t.mem.wf = true := by
  refine step_keeps (P := fun u => u.mem.wf = true) (fun i s t hexec hs => ?_) (fun _ _ h => h) h hs
  cases exec_effect hexec with
  | leaves hmem => rwa [hmem]
  | halts hmem => rwa [hmem]
  | pushes c v _ _ hmem => rw [hmem]; exact Memory.write_wf _ _ _ hs

/-- R31: what halts the machine gives a cause, and nothing else writes either. -/
theorem step_keeps_running_iff {s t : State} (h : step s = .next t)
    (hs : s.run = .running ↔ s.cause = .none) : t.run = .running ↔ t.cause = .none := by
  refine step_keeps (P := fun u => u.run = .running ↔ u.cause = .none)
    (fun i s t hexec hs => ?_) (fun s f _ => ?_) h hs
  · cases exec_effect hexec with
    | leaves _ hrun hcause => rwa [hrun, hcause]
    | halts _ hrun hcause => simp [hrun, hcause]
    | pushes _ _ _ _ _ hrun hcause => rwa [hrun, hcause]
  · cases f <;> simp [Fault.cause]

/-- Settles O41: the three parts of a legal state are kept one by one. -/
theorem everyStepKeepsTheStateLegal : Obligations.EveryStepKeepsTheStateLegal := fun s _ hs h =>
  have hfl := (flagsAreNeitherReadNorWritten s _ s.fl h).1
  ⟨step_keeps_canonical_memory h hs.memory, hfl.trans hs.flags, step_keeps_running_iff h hs.cause⟩

end Sys2Proof.Machine
end

section
/-! SUPPORT. Memory as data (spec/20_memory.md section 1): canonical memories that read alike are
equal; then memory and the rest of the state after reset (spec/10_state.md R33) and after a load
(spec/50_blocks_and_interfaces.md R149). -/

namespace Sys2Proof.Machine

/-! ## The canonical form -/

/-- In a memory of rising addresses every listed cell is what its address reads as. -/
theorem Memory.read_of_mem {m : Memory} (hr : m.Pairwise (fun c d => c.1 < d.1)) {a v : Byte}
    (h : (a.toNat, v) ∈ m) : m.read a = v := by
  induction m with
  | nil => cases h
  | cons c m ih =>
    obtain ⟨hc, hr⟩ := List.pairwise_cons.1 hr
    rw [Memory.read_cons]
    obtain rfl | h := List.mem_cons.1 h
    · exact if_pos rfl
    · rw [if_neg (hc _ h).ne, ih hr h]

/-- An address that does not read as an unlisted one is listed. -/
theorem Memory.mem_of_read_ne {m : Memory} {a : Byte} (h : m.read a ≠ Config.unwrittenByte) :
    (a.toNat, m.read a) ∈ m := by
  induction m with
  | nil => exact absurd (Memory.read_nil a) h
  | cons c m ih =>
    rw [Memory.read_cons] at h ⊢
    by_cases hc : c.1 = a.toNat
    · rw [if_pos hc, ← hc]
      exact List.mem_cons_self
    · rw [if_neg hc] at h ⊢
      exact List.mem_cons_of_mem c (ih h)

/-- The cells of a canonical memory are among those of any memory that reads alike. -/
theorem Memory.subset_of_read_eq {m n : Memory} (hm : m.wf = true)
    (h : ∀ a, m.read a = n.read a) : m ⊆ n := by
  obtain ⟨hr, hc⟩ := (Memory.wf_iff m).1 hm
  rintro ⟨k, v⟩ hmem
  obtain ⟨hk, hv⟩ := hc _ hmem
  obtain ⟨a, rfl⟩ : ∃ a : Byte, a.toNat = k := ⟨BitVec.ofNat 8 k, Nat.mod_eq_of_lt hk⟩
  have hread : n.read a = v := (h a).symm.trans (Memory.read_of_mem hr hmem)
  rw [← hread] at hv ⊢
  exact Memory.mem_of_read_ne hv

/-- Settles O8: each list holds the cells of the other, and both rise. -/
theorem canonicalMemoriesThatReadAlikeAreEqual :
    Obligations.CanonicalMemoriesThatReadAlikeAreEqual := by
  intro m n hm hn h
  have : Std.Irrefl (fun c d : Host.Cell => c.1 < d.1) := ⟨fun c => lt_irrefl c.1⟩
  have : Std.Antisymm (fun c d : Host.Cell => c.1 < d.1) := ⟨fun _ _ h h' => absurd h' h.asymm⟩
  exact List.Subset.antisymm_of_pairwise ((Memory.wf_iff m).1 hm).1 ((Memory.wf_iff n).1 hn).1
    (Memory.subset_of_read_eq hm h) (Memory.subset_of_read_eq hn fun a => (h a).symm)

/-! ## Reset (R33) -/

theorem Memory.ofFirst_read (f : Byte → Byte) (n : Nat) (hn : n ≤ 256) (a : Byte) :
    (Memory.ofFirst f n).read a = if a.toNat < n then f a else Config.unwrittenByte := by
  induction n with
  | zero => rfl
  | succ n ih =>
    have hlast : (BitVec.ofNat 8 n).toNat = n := Nat.mod_eq_of_lt hn
    rw [Memory.ofFirst, Memory.read_write, ih (Nat.le_of_succ_le hn)]
    by_cases ha : a = BitVec.ofNat 8 n
    · rw [if_pos ha, if_pos (by rw [ha, hlast]; exact n.lt_succ_self), ha]
    · have hne : a.toNat ≠ n := fun h => ha (BitVec.eq_of_toNat_eq (h.trans hlast.symm))
      have hlt : a.toNat < n + 1 ↔ a.toNat < n := by omega
      simp only [if_neg ha, hlt]

theorem Memory.ofContents_read (f : Byte → Byte) (a : Byte) : (Memory.ofContents f).read a = f a :=
  (Memory.ofFirst_read f 256 le_rfl a).trans (if_pos a.isLt)

/-- Settles O42: `memInit` fills the memory, and the other fields are the literals of
`State.reset`. -/
theorem resetLeavesTheListedValues : Obligations.ResetLeavesTheListedValues := by
  intro memInit
  have hregs : ∀ r : Reg, r ≠ 7 → State.reset.reg r = 0 := by decide
  exact ⟨hregs, rfl, rfl, rfl, rfl, rfl, rfl, Memory.ofContents_read memInit⟩

theorem resetWith_legal (memInit : Byte → Byte) : (State.resetWith memInit).Legal :=
  ⟨Memory.ofContents_wf memInit, rfl, iff_of_true rfl rfl⟩

/-- The empty list is the canonical memory that is 0 everywhere. -/
theorem reset_eq_resetWith_zero : State.reset = State.resetWith (fun _ => 0) := by
  have hmem : [] = Memory.ofContents (fun _ => 0) :=
    canonicalMemoriesThatReadAlikeAreEqual _ _ Memory.wf_nil (Memory.ofContents_wf _) fun a =>
      (Memory.read_nil a).trans (Memory.ofContents_read (fun _ => 0) a).symm
  rw [State.resetWith, ← hmem]
  rfl

/-- Settles O43: `State.reset` is one of the states after reset. -/
theorem resetStatesAreLegal : Obligations.ResetStatesAreLegal :=
  ⟨resetWith_legal, reset_eq_resetWith_zero ▸ resetWith_legal _, reset_eq_resetWith_zero⟩

/-! ## Load (R149) -/

theorem loadProgram_tooLong (s : State) {ws : List Byte} (hlen : 256 < ws.length) :
    s.loadProgram ws = .refused (.programTooLong ws.length) := if_neg hlen.not_ge

theorem hostCycle_started {x y : Session} (h : hostCycle x = .next y) : y.started = true := by
  obtain ⟨t, ht⟩ := step_answers_next x.machine
  simp only [hostCycle, ht] at h
  cases h
  rfl

theorem hostLoad_started {x : Session} (h : x.started = true) (ws : List Byte) :
    hostLoad ws x = .refused .loadAfterStart := if_pos h

/-- Settles O44: from address 0 the distance to a cell is its address, and the loader writes memory
only. -/
theorem loaderPlacesTheProgram : Obligations.LoaderPlacesTheProgram := by
  refine ⟨fun s ws hlen => ⟨_, loadProgram_fits s hlen, fun a => ?_, ?_⟩,
    fun s ws => loadProgram_tooLong s, fun x y ws h => hostLoad_started (hostCycle_started h) ws⟩
  · rw [placeWords_memRead s 0 a ws hlen, sub_zero]
  · obtain ⟨m, hm⟩ := placeWords_eq_setMem s 0 ws
    rw [hm]
    exact ⟨fun _ _ => rfl, ⟨rfl, rfl, rfl⟩, rfl, rfl⟩

end Sys2Proof.Machine
end

section
/-! SUPPORT. The nine opcode bytes and the table a byte's flags choose (spec/30_encoding.md R65,
R66, R68). -/

namespace Sys2Proof

/-- The opcode bytes of R66, in the order of `Op`. -/
abbrev opcodeBytes : List Byte := [0x82, 0x47, 0x45, 0x46, 0x01, 0x50, 0x11, 0xA0, 0xA2]

theorem mem_opcodeBytes_iff (b : Byte) : b ∈ opcodeBytes ↔ ∃ op, opcodeByte op = b := by
  have hmap : opcodeBytes =
      [Op.ldi, .prn, .push, .pop, .hlt, .call, .ret, .add, .mul].map opcodeByte := rfl
  have hall (op : Op) : op ∈ [Op.ldi, .prn, .push, .pop, .hlt, .call, .ret, .add, .mul] := by
    cases op <;> decide
  rw [hmap, List.mem_map]
  exact exists_congr fun op => and_iff_right (hall op)

theorem opcodeByte_injective {p q : Op} (h : opcodeByte p = opcodeByte q) : p = q :=
  Option.some.inj (((selectOp_eq_some_iff _ p).2 h).symm.trans ((selectOp_eq_some_iff _ q).2 rfl))

/-- A byte outside the nine selects no operation, whatever the operand cells are (R68). -/
theorem decode_of_notMem {ir : Byte} (h : ir ∉ opcodeBytes) (op1 op2 : Byte) :
    decode ir op1 op2 = .error (.unsupportedOperation ir) := by
  have hsel : selectOp ir = none := Option.eq_none_iff_forall_ne_some.2 fun op hop =>
    h ((mem_opcodeBytes_iff ir).2 ⟨op, (selectOp_eq_some_iff ir op).1 hop⟩)
  simp only [decode, hsel]

/-- Settles O4: a byte of the nine selects the operation whose opcode byte it is. -/
theorem exactlyNineOpcodeBytes : Obligations.ExactlyNineOpcodeBytes := by
  refine fun ir op1 op2 => ⟨fun h => ?_, fun h => decode_of_notMem h op1 op2⟩
  obtain ⟨op, hop⟩ := (mem_opcodeBytes_iff ir).1 h
  exact ⟨_, (decode_eq_ok_iff ..).2 ⟨op, hop, rfl⟩, (routeOperands_op ..).symm ▸ hop⟩

/-- No opcode byte has both flags: CALL and RET are not ALU operations. -/
theorem notMem_opcodeBytes_of_flags {b : Byte} (hpcf : (opcodeFields b).pcf = true)
    (haluf : (opcodeFields b).aluf = true) : b ∉ opcodeBytes := by
  rw [mem_opcodeBytes_iff]
  rintro ⟨op, rfl⟩
  obtain rfl | rfl := (pcf_opcodeByte_iff op).1 hpcf
  · exact absurd haluf (by decide)
  · exact absurd haluf (by decide)

/-- Settles O3: `dispatchTable` tests PCF, then ALUF. -/
theorem flagBitsChooseTheTable : Obligations.FlagBitsChooseTheTable := by
  intro b
  simp only [← Nat.mod_two_ne_one, ne_eq, ← opcodeFields_pcf_iff, ← opcodeFields_aluf_iff]
  exact ⟨fun h => if_pos h, fun h h' => (if_neg h).trans (if_pos h'),
    fun h h' => (if_neg h).trans (if_neg h'),
    fun h h' => decode_of_notMem (notMem_opcodeBytes_of_flags h h')⟩

/-- Settles O1, by evaluation of the decoder on the nine words. -/
theorem specWordsDecode : Obligations.SpecWordsDecode := by
  unfold Obligations.SpecWordsDecode
  decide

end Sys2Proof
end

section
/-! SUPPORT. Which cycles halt the machine and with which CAUSE (spec/10_state.md R31,
spec/60_exceptions.md R160 to R164). -/

namespace Sys2Proof.Machine

/-- Settles O11: neither an instruction nor a fatal condition answers anything but a next state. -/
theorem everyStepAnswersANextState : Obligations.EveryStepAnswersANextState := step_answers_next

/-! ## The fatal conditions -/

theorem wellFormed_eq_false_iff (i : Instr) :
    i.wellFormed = false ↔ ∃ b ∈ i.registerCells, 7 < b.toNat := by
  simp [Instr.wellFormed, registerCellLegal_eq_false_iff]

/-- Settles O13: an ill-formed instruction raises InvalidRegister with one of its cells. -/
theorem invalidRegisterOnlyHalts : Obligations.InvalidRegisterOnlyHalts := by
  intro i s h
  obtain ⟨b, -, hb⟩ := exec_illFormed i s ((wellFormed_eq_false_iff i).2 h)
  exact ⟨_, hb, raise_fatalFrom s (.invalidRegister b)⟩

theorem fetchDecode_of_notMem {s : State} (h : s.memRead s.pc ∉ opcodeBytes) :
    s.fetchDecode = .error (.unsupportedOperation (s.memRead s.pc)) := by
  rw [fetchDecode_eq]
  exact decode_of_notMem h _ _

theorem memRead_pc_mem_iff (s : State) :
    s.memRead s.pc ∈ opcodeBytes ↔ ∃ i, s.fetchDecode = .ok i := by
  rw [mem_opcodeBytes_iff, fetchDecode_eq]
  simp [decode_eq_ok_iff]

/-- Settles O12: the report names the byte, and the step takes the report. -/
theorem unsupportedOperationOnlyHalts : Obligations.UnsupportedOperationOnlyHalts := by
  intro s hrun h
  have hreport : fatalReport s = some (.unsupportedOperation (s.memRead s.pc)) := by
    rw [fatalReport_undecoded hrun (fetchDecode_of_notMem h), fetchIr_eq]
  exact ⟨⟨_, step_fatalReport hreport, raise_fatalFrom s _⟩, hreport⟩

/-! ## The CAUSE of a cycle (R31, R160) -/

/-- The CAUSE with which a cycle from CAUSE None ends, by what was decoded. -/
theorem step_cause {s : State} (hrun : s.run = .running) (hcause : s.cause = .none) :
    ∃ t, step s = .next t ∧
      ((s.memRead s.pc ∉ opcodeBytes ∧ t.cause = .unsupportedOperation) ∨
        ∃ i, s.fetchDecode = .ok i ∧
          ((i.wellFormed = false ∧ t.cause = .invalidRegister) ∨
            (i.wellFormed = true ∧ t.cause =
              if i.op = .hlt then .haltInstruction
              else if (i.op = .push ∨ i.op = .call) ∧ s.sp = 0 then .stackOverflow
              else .none))) := by
  by_cases hmem : s.memRead s.pc ∈ opcodeBytes
  · obtain ⟨i, hdec⟩ := (memRead_pc_mem_iff s).1 hmem
    rw [step_decoded hrun hdec]
    cases hwf : i.wellFormed with
    | false =>
      obtain ⟨b, -, hb⟩ := exec_illFormed i s hwf
      exact ⟨_, hb, .inr ⟨i, hdec, .inl ⟨hwf, rfl⟩⟩⟩
    | true =>
      obtain ⟨t, ht, hc⟩ := exec_wellFormed_cause i s hwf
      exact ⟨t, ht, .inr ⟨i, hdec, .inr ⟨hwf, hcause ▸ hc⟩⟩⟩
  · exact ⟨_, step_undecoded hrun (fetchDecode_of_notMem hmem), .inl ⟨hmem, rfl⟩⟩

theorem memRead_pc_eq_hlt_iff {s : State} {i : Instr} (h : s.fetchDecode = .ok i) :
    s.memRead s.pc = 0x01 ↔ i.op = .hlt := by
  rw [memRead_pc_of_fetchDecode h]
  exact ⟨fun h => opcodeByte_injective (q := .hlt) h, congrArg opcodeByte⟩

theorem wellFormed_of_op_hlt {i : Instr} (h : i.op = .hlt) : i.wellFormed = true := by
  cases i with
  | hlt => rfl
  | _ => cases h

/-- The instructions that push are PUSH and CALL with a legal operand. -/
theorem pushing_iff (i : Instr) : (∃ r, i = .push (regCell r) ∨ i = .call (regCell r)) ↔
    i.wellFormed = true ∧ (i.op = .push ∨ i.op = .call) := by
  cases i <;> simp [Instr.wellFormed, Instr.registerCells, Instr.op, registerCellLegal_iff]

theorem run_eq_halted_iff (r : RunState) : r = .halted ↔ r ≠ .running := by
  cases r <;> decide

/-- Settles O39: each CAUSE of `step_cause` comes with what was decoded, and the machine halts when
it takes one. -/
theorem causeRecordsWhyTheMachineHalted : Obligations.CauseRecordsWhyTheMachineHalted := by
  intro s hrun hcause
  obtain ⟨t, ht, hcase⟩ := step_cause hrun hcause
  have hhalt : t.run = .halted ↔ t.cause ≠ .none := by
    rw [run_eq_halted_iff]
    exact not_congr (step_keeps_running_iff ht (iff_of_true hrun hcause))
  refine ⟨t, ht, ?_⟩
  obtain ⟨hmem, hc⟩ | ⟨i, hdec, hi⟩ := hcase
  · have hne : s.memRead s.pc ≠ 0x01 := fun h => hmem (h ▸ by decide)
    have hdec := fetchDecode_of_notMem hmem
    refine ⟨iff_of_false (hc ▸ nofun) hne, ?_, iff_of_true hc hmem, ?_, hhalt⟩ <;> simp [hc, hdec]
  · have hmem := not_not_intro ((memRead_pc_mem_iff s).2 ⟨i, hdec⟩)
    simp only [hdec, Except.ok.injEq, exists_eq_left', pushing_iff, memRead_pc_eq_hlt_iff hdec]
    obtain ⟨hwf, hc⟩ | ⟨hwf, hc⟩ := hi
    · have hhlt : i.op ≠ .hlt := fun h => by simp [wellFormed_of_op_hlt h] at hwf
      exact ⟨iff_of_false (hc ▸ nofun) hhlt, iff_of_false (hc ▸ nofun) (by simp [hwf]),
        iff_of_false (hc ▸ nofun) hmem, iff_of_true hc hwf, hhalt⟩
    · have hwf' : i.wellFormed ≠ false := ne_false_of_eq_true hwf
      split_ifs at hc with hhlt hpush
      · exact ⟨iff_of_true hc hhlt, iff_of_false (hc ▸ nofun) (by simp [hhlt]),
          iff_of_false (hc ▸ nofun) hmem, iff_of_false (hc ▸ nofun) hwf', hhalt⟩
      · exact ⟨iff_of_false (hc ▸ nofun) hhlt, iff_of_true hc ⟨hpush.2, hwf, hpush.1⟩,
          iff_of_false (hc ▸ nofun) hmem, iff_of_false (hc ▸ nofun) hwf', hhalt⟩
      · exact ⟨iff_of_false (hc ▸ nofun) hhlt, iff_of_false (hc ▸ nofun)
            fun ⟨h0, _, hop⟩ => hpush ⟨hop, h0⟩,
          iff_of_false (hc ▸ nofun) hmem, iff_of_false (hc ▸ nofun) hwf', hhalt⟩

end Sys2Proof.Machine
end

section
/-! SUPPORT. The effect of single instructions: PRN and HLT (spec/44_general.md), ADD and MUL
(spec/42_alu.md), POP with its guard (spec/41_stack.md R102, R105), CALL and RET
(spec/43_control_transfer.md). -/

namespace Sys2Proof.Machine

/-- Settles O15, from the two branches of the sum. -/
theorem nextSeqResetsToZero : Obligations.NextSeqResetsToZero := by
  intro a n
  refine ⟨fun h => if_pos h, fun h => ?_⟩
  rw [nextSeq_toNat, if_neg h.not_ge]

/-! ## PRN, HLT, ADD, MUL -/

/-- Settles O18: the event and the advance change OUT and pc only. -/
theorem prnSendsTheRegister : Obligations.PrnSendsTheRegister :=
  ⟨fun s r => ⟨_, exec_prn s r, rfl, fun _ _ => rfl, fun _ _ => rfl, ⟨rfl, rfl, rfl⟩, rfl⟩,
    fun s b h => invalidRegisterOnlyHalts (.prn b) s ⟨b, List.mem_singleton_self b, h⟩⟩

/-- Settles O19: the halt and the advance change RUN, CAUSE and pc only. -/
theorem hltHaltsAndAdvances : Obligations.HltHaltsAndAdvances := fun s =>
  ⟨_, exec_hlt s, rfl, rfl, rfl, fun _ _ => rfl, fun _ _ => rfl, rfl, rfl, step_halted rfl⟩

/-- The two register cells of format RR, either of them illegal. -/
theorem exists_illegal_of_pair {a b : Byte} (h : 7 < a.toNat ∨ 7 < b.toNat) :
    ∃ c ∈ [a, b], 7 < c.toNat := by
  simpa using h

/-- Settles O31: one register write, of the old values' sum, and the advance. -/
theorem addWrapsModulo256 : Obligations.AddWrapsModulo256 := by
  refine ⟨fun s a b => ⟨_, exec_add s a b, ?_, setReg_sameRegistersExcept s a _, fun _ _ => rfl,
    ⟨rfl, rfl, rfl⟩, rfl, rfl⟩,
    fun s a b h => invalidRegisterOnlyHalts (.add a b) s (exists_illegal_of_pair h)⟩
  rw [advance_reg, setReg_reg_same, aluAdd_toNat]

/-- Settles O32: one register write, of the old values' product, and the advance. -/
theorem mulWrapsModulo256 : Obligations.MulWrapsModulo256 := by
  refine ⟨fun s a b => ⟨_, exec_mul s a b, ?_, setReg_sameRegistersExcept s a _, fun _ _ => rfl,
    ⟨rfl, rfl, rfl⟩, rfl, rfl⟩,
    fun s a b h => invalidRegisterOnlyHalts (.mul a b) s (exists_illegal_of_pair h)⟩
  rw [advance_reg, setReg_reg_same, aluMul_toNat]

/-! ## The increment of SP after a pop (R102) -/

section
variable (s : State)

theorem bumpSp_guard : (s.sp.toNat + 1 ≤ 0xF4 → s.bumpSp.sp.toNat = s.sp.toNat + 1 ∧
      s.bumpSp.out = s.out) ∧
    (0xF4 < s.sp.toNat + 1 → s.bumpSp.sp = 0xF4 ∧ s.bumpSp.out = s.out ++ [.underflowWarning]) := by
  refine ⟨fun h => ?_, fun h => ?_⟩
  · rw [bumpSp_room s h, setSp_sp, increment_toNat h]
    exact ⟨rfl, rfl⟩
  · rw [bumpSp_underflow s h, setSp_sp]
    exact ⟨rfl, rfl⟩

theorem bumpSp_sameRegistersExcept : SameRegistersExcept [Config.spIndex] s s.bumpSp :=
  fun _ hq => bumpSp_reg_of_ne s (List.ne_of_not_mem_cons hq)

theorem bumpSp_sameMemoryExcept : SameMemoryExcept [] s s.bumpSp :=
  fun a _ => congrArg (Memory.read · a) (bumpSp_mem s)

theorem bumpSp_fl : s.bumpSp.fl = s.fl := by
  obtain ⟨-, h⟩ | ⟨-, h⟩ := bumpSp_cases s <;> rw [h] <;> rfl

theorem bumpSp_sameStatus : SameStatus s s.bumpSp := ⟨bumpSp_fl s, bumpSp_run s, bumpSp_cause s⟩

end

/-- Settles O23: the load of the register, then the increment of SP as it then is. -/
theorem popLoadsThenIncrements : Obligations.PopLoadsThenIncrements := by
  intro s d
  have hguard := bumpSp_guard (s.setReg d (s.memRead s.sp))
  rw [setReg_sp] at hguard
  refine ⟨_, exec_pop s d, fun hd => ?_, fun p hp => hp ▸ hguard, fun q hq => ?_,
    bumpSp_sameMemoryExcept (s.setReg d _), bumpSp_sameStatus (s.setReg d _),
    congrArg (nextSeq · 1) (bumpSp_pc _)⟩
  · rw [advance_reg, bumpSp_reg_of_ne _ hd, setReg_reg_same]
  · obtain ⟨hd, hq⟩ := List.ne_and_not_mem_of_not_mem_cons hq
    exact (bumpSp_sameRegistersExcept _ q hq).trans (setReg_reg_of_ne s _ hd)

/-- Only POP's row of R151 holds the underflow warning. -/
theorem eq_pop_of_eventsOf {i : Instr} {s : State} (h : eventsOf i s = [.underflowWarning]) :
    ∃ d, i = .pop d := by
  cases i with
  | pop d => exact ⟨d, rfl⟩
  | prn r => cases hr : (checkReg r) <;> simp [eventsOf, hr, Except.toOption] at h
  | push _ | call _ =>
    simp only [eventsOf] at h
    split_ifs at h
    cases h
  | _ => cases h

/-- Settles O24: the underflow clause of O23, and an instruction's events are its row of R151, or
none if it raises InvalidRegister. -/
theorem stackUnderflowIsCorrected : Obligations.StackUnderflowIsCorrected := by
  refine ⟨fun s d p hp h => ?_, fun i s t h hout => ?_⟩
  · obtain ⟨t, ht, hreg, hguard, -, -, ⟨-, hrun, hcause⟩, hpc⟩ := popLoadsThenIncrements s d
    obtain ⟨hsp, hout⟩ := (hguard p hp).2 h
    exact ⟨t, ht, hout, hsp, hreg, hrun, hcause, hpc⟩
  · cases hwf : i.wellFormed with
    | false =>
      obtain ⟨b, -, hb⟩ := exec_illFormed i s hwf
      cases hb.symm.trans h
      exact absurd hout (by simp)
    | true =>
      obtain ⟨u, hu, hevents⟩ := exec_wellFormed_out i s hwf
      cases hu.symm.trans h
      exact eq_pop_of_eventsOf (List.append_cancel_left (hevents.symm.trans hout))

/-! ## CALL and RET -/

/-- Settles O27: the push of the return address, then pc from the register. -/
theorem callPushesTheReturnAddress : Obligations.CallPushesTheReturnAddress := fun s r h =>
  ⟨_, exec_call s r, push_memRead_pushed _ h, push_sp_toNat_room _ h, push_reg_room _ r h,
    push_sameMemoryExcept_room _ h, push_sameRegistersExcept _, push_sameStatus_room _ h,
    push_out_room _ h⟩

/-- Settles O28: RET changes pc only. -/
theorem retReadsTheCellAtSp : Obligations.RetReadsTheCellAtSp := fun s =>
  ⟨_, exec_ret s, rfl, fun _ _ => rfl, fun _ _ => rfl, ⟨rfl, rfl, rfl⟩, rfl⟩

/-- Settles O29: with RET_POPS = true the increment of R102 comes before the write of pc. -/
theorem poppingReturnIncrementsSp : Obligations.PoppingReturnIncrementsSp := fun s =>
  ⟨rfl, (bumpSp_guard s).1, (bumpSp_guard s).2, bumpSp_sameRegistersExcept s,
    bumpSp_sameMemoryExcept s, bumpSp_sameStatus s⟩

/-- Settles O30: RET finds the return address in the cell that CALL pushed, and changes pc only. -/
theorem callThenReturnLowersSpByOne : Obligations.CallThenReturnLowersSpByOne := by
  intro s r h
  have hcell : (s.push (nextSeq s.pc 1)).memRead (s.push (nextSeq s.pc 1)).sp = nextSeq s.pc 1 := by
    rw [push_sp_room _ h, push_memRead_pushed _ h]
  exact ⟨_, _, exec_call s r, exec_ret _, hcell, push_sp_toNat_room _ h, push_sameRegistersExcept _,
    push_sameMemoryExcept_room _ h, push_sameStatus_room _ h, push_out_room _ h⟩

end Sys2Proof.Machine
end
